-- ==== Sys2Proof/Word.lean ====
section
/-! DEFINITION. The widths of the block (spec/00_scope.md R9, R12, R13): bytes, words, addresses, register numbers. -/

namespace Sys2Proof

/-- An unsigned 8-bit value: a register, a timer, one element of memory (10 R23, 20 R55). -/
abbrev Byte := BitVec 8

/-- An unsigned 16-bit value: pc, I, a stack entry, an instruction word (00 R9, 30 R71). -/
abbrev Word := BitVec 16

/-- The 12-bit address field `nnn` of an instruction word (30 R72). -/
abbrev Addr := BitVec 12

/-- The number of a general register, V0 to VF (10 R23). -/
abbrev Reg := Fin 16

/-- The count `n` of sprite rows, 0 to 15 (30 R73). -/
abbrev Rows := Fin 16

/-- The flag register VF (10 R24). -/
abbrev VF : Reg := 0xF

end Sys2Proof
end

