-- ==== Sys2Proof/Config.lean ====
section
/-! DEFINITION. What a run fixes and what nothing fixes (spec/00_scope.md R10, R18; 10 R43): the parameters of the model as
plain data, and the random byte of `Cxkk` as a free value. -/

namespace Sys2Proof

/-- What the engine does with an unknown word (40 R95, 60 R162, 92 D5). -/
inductive UnknownPolicy where
  /-- Raise `UnknownInstruction`: the spec's default. -/
  | fatal
  /-- Leave pc where it is and go on: the reference's silent stall. -/
  | stall
  deriving DecidableEq, Repr

/-- The parameters of 00 R10, fixed for a run (10 R43). They stand in `State.config` as data that no step and no command
changes, so a statement over all states holds for every setting of them (log entry 2, DESIGN CHOICE). -/
structure Config where
  /-- FONT: the 80 bytes reset writes to 0x000 to 0x04F (20 R61). -/
  font : Vector Byte 80
  /-- UNKNOWN_INSTRUCTION_POLICY (40 R95). -/
  unknownPolicy : UnknownPolicy
  /-- ENFORCE_PROGRAM_REGION: fault on a fetch below 0x200 (40 R86). -/
  enforceProgramRegion : Bool
  deriving DecidableEq, Repr

/-- The byte the k-th executed `Cxkk` draws: a free value with no law (00 R18, 43 R122, 92 D24). It has no body, so nothing
can be proved of its values; `State.draws` counts the draws and is its argument (log entry 3). Safe. -/
opaque Config.randomByte : Nat → Byte

end Sys2Proof
end

