-- ==== Sys2Proof/Machine/Font.lean ====
section
/-! DEFINITION. The default parameters of the model (spec/00_scope.md R10): the conventional font of 20 R61 (the spec marks
its bytes as general knowledge, log entry 4, PRESUMED), policy Fatal (92 D5), the program region enforced (92 D3). -/

namespace Sys2Proof.Machine

/-- Glyphs 0 to 7 of 20 R61, five bytes each. -/
def glyphs0to7 : List Byte :=
  [0xF0, 0x90, 0x90, 0x90, 0xF0] ++ [0x20, 0x60, 0x20, 0x20, 0x70] ++
  [0xF0, 0x10, 0xF0, 0x80, 0xF0] ++ [0xF0, 0x10, 0xF0, 0x10, 0xF0] ++
  [0x90, 0x90, 0xF0, 0x10, 0x10] ++ [0xF0, 0x80, 0xF0, 0x10, 0xF0] ++
  [0xF0, 0x80, 0xF0, 0x90, 0xF0] ++ [0xF0, 0x10, 0x20, 0x40, 0x40]

/-- Glyphs 8 to F of 20 R61, five bytes each. -/
def glyphs8toF : List Byte :=
  [0xF0, 0x90, 0xF0, 0x90, 0xF0] ++ [0xF0, 0x90, 0xF0, 0x10, 0xF0] ++
  [0xF0, 0x90, 0xF0, 0x90, 0x90] ++ [0xE0, 0x90, 0xE0, 0x90, 0xE0] ++
  [0xF0, 0x80, 0x80, 0x80, 0xF0] ++ [0xE0, 0x90, 0x90, 0x90, 0xE0] ++
  [0xF0, 0x80, 0xF0, 0x80, 0xF0] ++ [0xF0, 0x80, 0xF0, 0x80, 0x80]

/-- The default FONT: 16 glyphs of five bytes (20 R61, 92 D31). -/
def conventionalFont : Vector Byte 80 := ⟨⟨glyphs0to7 ++ glyphs8toF⟩, rfl⟩

/-- The defaults of 00 R10. -/
def defaultConfig : Config :=
  { font := conventionalFont, unknownPolicy := .fatal, enforceProgramRegion := true }

end Sys2Proof.Machine
end

