-- ==== Sys2Proof/Syntax.lean ====
section
/-! DEFINITION. The instructions: one constructor for each of the 35 rows of spec/30_encoding.md R76 (opcode_table.json).
An operand's type is exactly as wide as its field (R72, R73), so no term holds an operand its encoding does not admit. -/

namespace Sys2Proof

/-- An instruction of the block. `Unknown` is no constructor: it is what the decoder answers for a word of R77. -/
inductive Instr where
  /-- `0000` HALT (41 R99). -/
  | halt
  /-- `00E0` CLS (45 R132). -/
  | cls
  /-- `00EE` RET (41 R101). -/
  | ret
  /-- `1nnn` JP nnn (41 R102). -/
  | jp (nnn : Addr)
  /-- `2nnn` CALL nnn (41 R103). -/
  | call (nnn : Addr)
  /-- `3xkk` SE Vx, kk (42 R106). -/
  | seImm (x : Reg) (kk : Byte)
  /-- `4xkk` SNE Vx, kk (42 R107). -/
  | sneImm (x : Reg) (kk : Byte)
  /-- `5xy0` SE Vx, Vy (42 R108). -/
  | seReg (x y : Reg)
  /-- `6xkk` LD Vx, kk (43 R111). -/
  | ldImm (x : Reg) (kk : Byte)
  /-- `7xkk` ADD Vx, kk (43 R112). -/
  | addImm (x : Reg) (kk : Byte)
  /-- `8xy0` LD Vx, Vy (43 R113). -/
  | ldReg (x y : Reg)
  /-- `8xy1` OR Vx, Vy (43 R114). -/
  | orReg (x y : Reg)
  /-- `8xy2` AND Vx, Vy (43 R115). -/
  | andReg (x y : Reg)
  /-- `8xy3` XOR Vx, Vy (43 R116). -/
  | xorReg (x y : Reg)
  /-- `8xy4` ADD Vx, Vy (43 R117). -/
  | addReg (x y : Reg)
  /-- `8xy5` SUB Vx, Vy (43 R118). -/
  | sub (x y : Reg)
  /-- `8xy6` SHR Vx {, Vy} (43 R119): y is a field of the word that nothing reads. -/
  | shr (x y : Reg)
  /-- `8xy7` SUBN Vx, Vy (43 R120). -/
  | subn (x y : Reg)
  /-- `8xyE` SHL Vx {, Vy} (43 R121): y is a field of the word that nothing reads. -/
  | shl (x y : Reg)
  /-- `9xy0` SNE Vx, Vy (42 R109). -/
  | sneReg (x y : Reg)
  /-- `Annn` LD I, nnn (44 R125). -/
  | ldI (nnn : Addr)
  /-- `Bnnn` JP V0, nnn (41 R104). -/
  | jpV0 (nnn : Addr)
  /-- `Cxkk` RND Vx, kk (43 R122). -/
  | rnd (x : Reg) (kk : Byte)
  /-- `Dxyn` DRW Vx, Vy, n (45 R136). -/
  | drw (x y : Reg) (n : Rows)
  /-- `Ex9E` SKP Vx (46 R139). -/
  | skp (x : Reg)
  /-- `ExA1` SKNP Vx (46 R140). -/
  | sknp (x : Reg)
  /-- `Fx07` LD Vx, DT (46 R141). -/
  | ldVxDT (x : Reg)
  /-- `Fx0A` LD Vx, K (46 R142). -/
  | ldVxK (x : Reg)
  /-- `Fx15` LD DT, Vx (46 R143). -/
  | ldDTVx (x : Reg)
  /-- `Fx18` LD ST, Vx (46 R144). -/
  | ldSTVx (x : Reg)
  /-- `Fx1E` ADD I, Vx (44 R126). -/
  | addI (x : Reg)
  /-- `Fx29` LD F, Vx (44 R127). -/
  | ldF (x : Reg)
  /-- `Fx33` LD B, Vx (44 R128). -/
  | ldB (x : Reg)
  /-- `Fx55` LD [I], Vx (44 R129). -/
  | storeRegs (x : Reg)
  /-- `Fx65` LD Vx, [I] (44 R130). -/
  | loadRegs (x : Reg)
  deriving DecidableEq, Repr

end Sys2Proof
end

