-- ==== Sys2Proof/Machine/State.lean ====
section
/-! DEFINITION. The state of the block as plain data: exactly the pieces spec/10_state.md R44 lists, and two fields of the
model's own, the run's parameters and the count of random draws (log entries 2 and 3). The state after reset. -/

namespace Sys2Proof.Machine

/-- Why a step could stop outside the spec: NO constructor. Every condition of 60 R146 writes `status` (60 R147) and is a next
state, so a step always answers one; there is nothing here to be safe or unsafe about (log entry 1). -/
inductive Fault
  deriving DecidableEq, Repr

/-- Why a step could refuse an instruction. -/
inductive Refusal where
  /-- An instruction with no meaning yet, rejected by name in exec's arm. Raised by no arm of this model; safe. -/
  | notModelled (mnemonic : String)
  deriving DecidableEq, Repr

/-- The fault causes of 60 R146. -/
inductive Cause where
  | unknownInstruction
  | stackOverflow
  | stackUnderflow
  | memoryOutOfBounds
  | pcOutOfRange
  | keyIndexOutOfRange
  deriving DecidableEq, Repr

/-- What a fault records (10 R40, 60 R147): the cause, the address of the faulting instruction, its word or none for a fault of
the fetch, and the cause's number. -/
structure FaultRecord where
  cause : Cause
  faultPc : Word
  faultWord : Option Word
  faultInfo : Nat
  deriving DecidableEq, Repr

/-- Whether the engine runs (10 R40). Halted and Faulted are terminal (60 R149, R150). -/
inductive Status where
  | running
  | halted
  | faulted (record : FaultRecord)
  deriving DecidableEq, Repr

/-- Memory: the bytes that differ from what an unlisted address reads as, sorted by address (Machine/Memory.lean). -/
abbrev Memory := List Host.Cell

/-- The 64 by 32 pixels, row-major (10 R36): row y, and in it column x. -/
abbrev Display := Vector (Vector Bool 64) 32

/-- The state of the block (10 R44). -/
structure State where
  /-- V0 to VF (10 R23). -/
  V : Vector Byte 16
  /-- The index register (10 R26). -/
  I : Word
  /-- The program counter (10 R27). -/
  pc : Word
  /-- The return stack (10 R30). -/
  stack : Vector Word 16
  /-- How many stack entries are in use, 0 to 16 (10 R31). -/
  sp : Fin 17
  /-- The delay timer (10 R33). -/
  DT : Byte
  /-- The sound timer (10 R33). -/
  ST : Byte
  /-- The keypad, written by the host (10 R35). -/
  key : Vector Bool 16
  /-- The display (10 R36). -/
  disp : Display
  /-- The redraw flag (10 R38). -/
  needsRedraw : Bool
  /-- Memory (10 R42, 20 R55). -/
  mem : Memory
  /-- Running, Halted or Faulted (10 R40). -/
  status : Status
  /-- The word of the last completed fetch (10 R41). -/
  lastWord : Word
  /-- The model's own: the parameters of the run (00 R10, 10 R43). -/
  config : Config
  /-- The model's own: how many random bytes have been drawn (00 R18). -/
  draws : Nat
  deriving DecidableEq, Repr

/-- The state after reset under a setting of the parameters (10 R44, 70 R164): memory lists nothing, since an unlisted address
reads as reset leaves it. -/
def State.resetWith (config : Config) (draws : Nat) : State :=
  { V := Vector.replicate 16 0
    I := 0x0000
    pc := 0x200
    stack := Vector.replicate 16 0
    sp := 0
    DT := 0
    ST := 0
    key := Vector.replicate 16 false
    disp := Vector.replicate 32 (Vector.replicate 64 false)
    needsRedraw := false
    mem := []
    status := .running
    lastWord := 0x0000
    config := config
    draws := draws }

/-- The machine right after reset, which is also its state at construction (70 R163, 92 D27), under the default parameters. -/
def State.reset : State := State.resetWith defaultConfig 0

end Sys2Proof.Machine
end

