-- ==== Sys2Proof/Machine/Memory.lean ====
section
/-! DEFINITION. The memory array (spec/20_memory.md) as a sorted list of cells: what an unlisted address reads as, reading and
writing one byte, and the canonical form that makes equal memories equal lists. -/

namespace Sys2Proof.Machine

/-- The byte reset leaves at an address: the font at 0x000 to 0x04F, zero elsewhere (70 R164, 20 R59). This is what an address
that memory does not list reads as (log entry 5). -/
def unlistedByte (font : Vector Byte 80) (a : Nat) : Byte :=
  if h : a < 80 then font[a] else 0

/-- The byte at an address, `base` being what an unlisted one reads as. -/
def Memory.read (base : Nat → Byte) : Memory → Nat → Byte
  | [], a => base a
  | (k, b) :: m, a => if k = a then b else Memory.read base m a

/-- Memory without any entry for an address. -/
def Memory.erase (m : Memory) (a : Nat) : Memory := m.filter fun c => decide (c.1 ≠ a)

/-- Put an entry in its place by address. -/
def Memory.insert (a : Nat) (b : Byte) : Memory → Memory
  | [] => [(a, b)]
  | (k, c) :: m => if a < k then (a, b) :: (k, c) :: m else (k, c) :: Memory.insert a b m

/-- Write one byte. Writing what an unlisted address reads as leaves the address unlisted. -/
def Memory.write (base : Nat → Byte) (m : Memory) (a : Nat) (b : Byte) : Memory :=
  if b = base a then m.erase a else Memory.insert a b (m.erase a)

/-- Write bytes at consecutive addresses (20 R58, after its check). -/
def Memory.writeList (base : Nat → Byte) (m : Memory) (a : Nat) : List Byte → Memory
  | [] => m
  | b :: bs => Memory.writeList base (Memory.write base m a b) (a + 1) bs

/-- The canonical form: addresses strictly rise, every one is inside the array (20 R55), and no entry repeats what its address
reads as unlisted. -/
abbrev Memory.wf (base : Nat → Byte) (m : Memory) : Prop :=
  m.Pairwise (fun c d => c.1 < d.1) ∧ ∀ c ∈ m, c.1 < 4096 ∧ c.2 ≠ base c.1

end Sys2Proof.Machine
end

