-- ==== Sys2Proof/Machine/Ops.lean ====
section
/-! DEFINITION. The named operations on the state: registers, memory with its bounds check (spec/20_memory.md R57, R58), the stack
controller (41 R100), the timer tick (60 R156), the pc update (40 R91), and TAKING A FAULT as one operation (60 R147). There
is no return from a fault: the block has no handler (60 R145, R154), and only the commands of Machine/Commands.lean leave
Halted or Faulted (70 R165). -/

namespace Sys2Proof.Machine

/-- The outcome of an instruction or a step. -/
abbrev Result := Host.Outcome State Fault Refusal

/-- A fault about to be raised: its cause and its number (00 R16, 60 R146). -/
structure Raise where
  cause : Cause
  info : Nat
  deriving DecidableEq, Repr

/-- Taking a fault, the one operation (60 R147): `status` records the cause, pc, the word or none, and the number; nothing else
is written. -/
def State.raise (s : State) (r : Raise) (word : Option Word) : State :=
  { s with status := .faulted { cause := r.cause, faultPc := s.pc, faultWord := word, faultInfo := r.info } }

/-- An instruction that checks first: on a failed check it takes the fault with its own word, which `last_word` holds (40 R88,
R93), and otherwise goes on. -/
def attempt {α : Type} (check : Except Raise α) (s : State) (k : α → State) : Result :=
  match check with
  | .error r => .next (s.raise r (some s.lastWord))
  | .ok a => .next (k a)

/-- `halt`: status becomes Halted, pc stays (00 R16, 41 R99). -/
def State.halt (s : State) : State := { s with status := .halted }

/-- `V[r]` (10 R23). -/
def State.reg (s : State) (r : Reg) : Byte := s.V[r.val]

/-- `V[r] <- b`. No register is hardwired (10 R23). -/
def State.setReg (s : State) (r : Reg) (b : Byte) : State := { s with V := s.V.set r.val b }

/-- `I <- w` (10 R26). -/
def State.setI (s : State) (w : Word) : State := { s with I := w }

/-- `pc <- w` (00 R14). -/
def State.setPc (s : State) (w : Word) : State := { s with pc := w }

/-- `DT <- b`. -/
def State.setDT (s : State) (b : Byte) : State := { s with DT := b }

/-- `ST <- b`. -/
def State.setST (s : State) (b : Byte) : State := { s with ST := b }

/-- Replace the display and set the redraw flag, as every `00E0` and `Dxyn` does (10 R38, 45 R137, 92 D18). -/
def State.showDisplay (s : State) (d : Display) : State := { s with disp := d, needsRedraw := true }

/-- `last_word <- w` (40 R88). -/
def State.setLastWord (s : State) (w : Word) : State := { s with lastWord := w }

/-- The default pc update: pc + 2 modulo 2^16 (40 R91, R92). -/
def State.advance (s : State) : State := s.setPc (s.pc + 2)

/-- `skip_if(c)`: pc + 4 when the condition holds, pc + 2 otherwise (42 R105). -/
def State.skipIf (s : State) (c : Bool) : State := if c then s.setPc (s.pc + 4) else s.setPc (s.pc + 2)

/-- What an address that memory does not list reads as. -/
def State.base (s : State) : Nat → Byte := unlistedByte s.config.font

/-- `memory[a]`. -/
def State.readByte (s : State) (a : Nat) : Byte := s.mem.read s.base a

/-- The n bytes at a, a+1, .... -/
def State.readBytes (s : State) (a : Nat) : Nat → List Byte
  | 0 => []
  | n + 1 => s.readByte a :: s.readBytes (a + 1) n

/-- `memory[a+i] <- bs[i]` for every i. -/
def State.writeBytes (s : State) (a : Nat) (bs : List Byte) : State := { s with mem := s.mem.writeList s.base a bs }

/-- The first address from `a` on that lies above 0xFFF (20 R57: addr + the first i with addr + i > 0xFFF). -/
def firstOutside (a : Nat) : Nat := if a > 0xFFF then a else 0x1000

/-- The bounds check of n bytes at a (20 R57, R58): it fails when n > 0 and the last address is above 0xFFF. -/
def rangeFault (a n : Nat) : Option Raise :=
  if n > 0 ∧ a + n - 1 > 0xFFF then some ⟨.memoryOutOfBounds, firstOutside a⟩ else none

/-- `MemRead(a, n)` (20 R57). -/
def State.memRead (s : State) (a n : Nat) : Except Raise (List Byte) :=
  match rangeFault a n with
  | some r => .error r
  | none => .ok (s.readBytes a n)

/-- `MemWrite(a, n, bs)`, n the length of bs (20 R58): all or nothing. -/
def State.memWrite (s : State) (a : Nat) (bs : List Byte) : Except Raise State :=
  match rangeFault a bs.length with
  | some r => .error r
  | none => .ok (s.writeBytes a bs)

/-- `push(v)` (41 R100). sp never exceeds 16 by its type, so the check fails exactly when sp = 16. -/
def State.push (s : State) (v : Word) : Except Raise State :=
  if h : s.sp.val < 16 then
    .ok { s with stack := s.stack.set s.sp.val v, sp := ⟨s.sp.val + 1, by omega⟩ }
  else .error ⟨.stackOverflow, s.sp.val⟩

/-- `pop()` (41 R100): the entry is not cleared (10 R32). -/
def State.pop (s : State) : Except Raise (Word × State) :=
  if h : s.sp.val = 0 then .error ⟨.stackUnderflow, s.sp.val⟩
  else .ok (s.stack[s.sp.val - 1]'(by omega), { s with sp := ⟨s.sp.val - 1, by omega⟩ })

/-- One timer's tick: one down, never below 0 (60 R156). -/
def countDown (b : Byte) : Byte := if b = 0 then 0 else b - 1

/-- `tick()`: both timers, once (60 R156). -/
def State.tick (s : State) : State := { s with DT := countDown s.DT, ST := countDown s.ST }

/-- The sixteen key numbers in scanning order (46 R142). -/
def keyNumbers : List (Fin 16) := [0, 1, 2, 3, 4, 5, 6, 7, 8, 9, 10, 11, 12, 13, 14, 15]

/-- The lowest pressed key, if any (46 R142, 92 D15). -/
def State.firstKey (s : State) : Option (Fin 16) := keyNumbers.find? fun k => s.key[k.val]

/-- The key a register value names, or the fault of 46 R139 and R140 (92 D16). -/
def keyIndex (v : Byte) : Except Raise (Fin 16) :=
  if h : v.toNat ≤ 0xF then .ok ⟨v.toNat, by omega⟩ else .error ⟨.keyIndexOutOfRange, v.toNat⟩

/-- The next random byte and the state that has drawn it (00 R18, 43 R122). -/
def State.draw (s : State) : Byte × State := (Config.randomByte s.draws, { s with draws := s.draws + 1 })

end Sys2Proof.Machine
end

