-- ==== Sys2Proof/Machine/Flags.lean ====
section
/-! DEFINITION. The flag computations (spec/43_alu.md): each is a truth value that becomes exactly 0x00 or 0x01 in VF (R110), and
the results, computed on naturals and then reduced to 8 bits. -/

namespace Sys2Proof.Machine

/-- A flag as a byte: exactly 0x01 or 0x00 (43 R110). -/
def flagByte (f : Bool) : Byte := if f then 0x01 else 0x00

/-- Carry of an addition: the sum is above 255 (43 R117). -/
def carry (a b : Byte) : Bool := decide (a.toNat + b.toNat > 255)

/-- The flag of SUB and SUBN: strictly greater (43 R118, R120, 90 C3). -/
def greater (a b : Byte) : Bool := decide (a.toNat > b.toNat)

/-- The bit SHR shifts out: bit 0 (43 R119). -/
def lowBit (a : Byte) : Bool := decide (a.toNat % 2 = 1)

/-- The bit SHL shifts out: bit 7 (43 R121). -/
def highBit (a : Byte) : Bool := decide (a.toNat / 128 = 1)

/-- `trunc_8(a + b)` (43 R112, R117). -/
def add8 (a b : Byte) : Byte := BitVec.ofNat 8 (a.toNat + b.toNat)

/-- `trunc_8(a - b + 256)` (43 R118, R120). -/
def sub8 (a b : Byte) : Byte := BitVec.ofNat 8 (a.toNat + 256 - b.toNat)

/-- `a >> 1` (43 R119). -/
def half8 (a : Byte) : Byte := BitVec.ofNat 8 (a.toNat / 2)

/-- `trunc_8(a << 1)` (43 R121). -/
def double8 (a : Byte) : Byte := BitVec.ofNat 8 (a.toNat * 2)

/-- Write Vx first and VF second, so that with x = F the flag is what VF ends with (43 R110, 92 D9). -/
def State.setRegFlag (s : State) (x : Reg) (b : Byte) (f : Bool) : State := (s.setReg x b).setReg VF (flagByte f)

end Sys2Proof.Machine
end

