-- ==== Sys2Proof/Machine/Alu.lean ====
section
/-! DEFINITION. Register loads and arithmetic (spec/43_alu.md). Every operand is read before anything is written (R110), and every
instruction advances pc by 2 (40 R91). -/

namespace Sys2Proof.Machine

/-- `6xkk` LD Vx, kk (43 R111). -/
def execLdImm (x : Reg) (kk : Byte) (s : State) : Result := .next (s.setReg x kk).advance

/-- `7xkk` ADD Vx, kk (43 R112): wraps, and writes no flag. -/
def execAddImm (x : Reg) (kk : Byte) (s : State) : Result := .next (s.setReg x (add8 (s.reg x) kk)).advance

/-- `8xy0` LD Vx, Vy (43 R113, 92 D10). -/
def execLdReg (x y : Reg) (s : State) : Result := .next (s.setReg x (s.reg y)).advance

/-- `8xy1` OR Vx, Vy (43 R114). -/
def execOrReg (x y : Reg) (s : State) : Result := .next (s.setReg x (s.reg x ||| s.reg y)).advance

/-- `8xy2` AND Vx, Vy (43 R115). -/
def execAndReg (x y : Reg) (s : State) : Result := .next (s.setReg x (s.reg x &&& s.reg y)).advance

/-- `8xy3` XOR Vx, Vy (43 R116). -/
def execXorReg (x y : Reg) (s : State) : Result := .next (s.setReg x (s.reg x ^^^ s.reg y)).advance

/-- `8xy4` ADD Vx, Vy (43 R117): VF is the carry. -/
def execAddReg (x y : Reg) (s : State) : Result :=
  .next (s.setRegFlag x (add8 (s.reg x) (s.reg y)) (carry (s.reg x) (s.reg y))).advance

/-- `8xy5` SUB Vx, Vy (43 R118): VF is Vx > Vy. -/
def execSub (x y : Reg) (s : State) : Result :=
  .next (s.setRegFlag x (sub8 (s.reg x) (s.reg y)) (greater (s.reg x) (s.reg y))).advance

/-- `8xy6` SHR Vx {, Vy} (43 R119): VF is the old bit 0 of Vx; y is not read. -/
def execShr (x _y : Reg) (s : State) : Result :=
  .next (s.setRegFlag x (half8 (s.reg x)) (lowBit (s.reg x))).advance

/-- `8xy7` SUBN Vx, Vy (43 R120): VF is Vy > Vx. -/
def execSubn (x y : Reg) (s : State) : Result :=
  .next (s.setRegFlag x (sub8 (s.reg y) (s.reg x)) (greater (s.reg y) (s.reg x))).advance

/-- `8xyE` SHL Vx {, Vy} (43 R121): VF is the old bit 7 of Vx; y is not read. -/
def execShl (x _y : Reg) (s : State) : Result :=
  .next (s.setRegFlag x (double8 (s.reg x)) (highBit (s.reg x))).advance

/-- `Cxkk` RND Vx, kk (43 R122): a drawn byte under the mask kk. The byte is a free value (92 D24, log entry 3). -/
def execRnd (x : Reg) (kk : Byte) (s : State) : Result := .next (s.draw.2.setReg x (s.draw.1 &&& kk)).advance

end Sys2Proof.Machine
end

