-- ==== Sys2Proof/Machine/Operands.lean ====
section
/-! DEFINITION. The operand forms (spec/30_encoding.md R73, 44): addresses zero-extended from a field or a register, the glyph
address, decimal digits, and the register block V0 to Vx. A plain register operand is `State.reg`; an immediate is itself. -/

namespace Sys2Proof.Machine

/-- `zext_16(nnn)` (30 R73). -/
def zextAddr (nnn : Addr) : Word := nnn.setWidth 16

/-- `zext_16(V[x])`. -/
def zextByte (b : Byte) : Word := b.setWidth 16

/-- Where the bytes an index instruction moves begin: I as it stands, with no wrap (44, 20 R57). -/
def State.indexAddr (s : State) : Nat := s.I.toNat

/-- The address of the glyph of a value: `zext_16(v) * 5`, not masked (44 R127). -/
def glyphAddr (v : Byte) : Word := zextByte v * 5

/-- Hundreds, tens, ones (44 R128). -/
def bcdDigits (v : Byte) : List Byte :=
  [BitVec.ofNat 8 (v.toNat / 100), BitVec.ofNat 8 (v.toNat / 10 % 10), BitVec.ofNat 8 (v.toNat % 10)]

/-- `[V[0], ..., V[x]]` (44 R129). -/
def State.regBlock (s : State) (x : Reg) : List Byte := s.V.toList.take (x.val + 1)

/-- `V[i] <- bs[0]; V[i+1] <- bs[1]; ...` (44 R130). A number past 0xF is dropped; no instruction gives one. -/
def State.setRegsFrom (s : State) (i : Nat) : List Byte → State
  | [] => s
  | b :: bs => if h : i < 16 then (s.setReg ⟨i, h⟩ b).setRegsFrom (i + 1) bs else s

end Sys2Proof.Machine
end

