-- ==== Sys2Proof/Machine/ControlFlow.lean ====
section
/-! DEFINITION. Control flow (spec/41_control_flow.md): halt, return, jump, call, computed jump. In each, pc is the address of the
instruction (10 R27). -/

namespace Sys2Proof.Machine

/-- `0000` HALT (41 R99): status becomes Halted; pc is not advanced. -/
def execHalt (s : State) : Result := .next s.halt

/-- `00EE` RET (41 R101): the popped address plus 2; StackUnderflow when sp = 0. -/
def execRet (s : State) : Result := attempt s.pop s fun p => p.2.setPc (p.1 + 2)

/-- `1nnn` JP nnn (41 R102). -/
def execJp (nnn : Addr) (s : State) : Result := .next (s.setPc (zextAddr nnn))

/-- `2nnn` CALL nnn (41 R103): pushes its own address; StackOverflow when sp = 16. -/
def execCall (nnn : Addr) (s : State) : Result := attempt (s.push s.pc) s fun t => t.setPc (zextAddr nnn)

/-- `Bnnn` JP V0, nnn (41 R104): a 16-bit sum, not masked to 12 bits (92 D23). -/
def execJpV0 (nnn : Addr) (s : State) : Result := .next (s.setPc (zextAddr nnn + zextByte (s.reg 0)))

end Sys2Proof.Machine
end

