-- ==== Sys2Proof/Machine/DrawUnit.lean ====
section
/-! DEFINITION. The sprite XOR draw unit and the collision detector (spec/45_display.md R131 to R135), on the display alone. -/

namespace Sys2Proof.Machine

/-- `wrap_x(v) = v mod 64` (45 R131). -/
def wrapX (v : Nat) : Fin 64 := ⟨v % 64, Nat.mod_lt _ (by decide)⟩

/-- `wrap_y(v) = v mod 32` (45 R131). -/
def wrapY (v : Nat) : Fin 32 := ⟨v % 32, Nat.mod_lt _ (by decide)⟩

/-- `disp[px][py]`. -/
def Display.pixel (d : Display) (px : Fin 64) (py : Fin 32) : Bool := d[py.val][px.val]

/-- `disp[px][py] <- not disp[px][py]` (45 R134). -/
def Display.toggle (d : Display) (px : Fin 64) (py : Fin 32) : Display :=
  d.set py.val (d[py.val].set px.val (!d[py.val][px.val]))

/-- All pixels off (45 R132). -/
def Display.blank : Display := Vector.replicate 32 (Vector.replicate 64 false)

/-- Bit 7 - c of a row byte is column c: bit 7 is the leftmost pixel (45 R134, 92 D17). -/
def spriteBit (row : Byte) (c : Nat) : Bool := row.getLsbD (7 - c)

/-- The columns of a sprite row (45 R134). -/
def columns : List Nat := [0, 1, 2, 3, 4, 5, 6, 7]

/-- XOR the columns `cs` of one row byte at column x0 and display row y (45 R134). -/
def xorColumns (row : Byte) (x0 y : Nat) : List Nat → Display → Display
  | [], d => d
  | c :: cs, d =>
    xorColumns row x0 y cs (if spriteBit row c then Display.toggle d (wrapX (x0 + c)) (wrapY y) else d)

/-- `xor_draw`: row r of the sprite goes to display row y0 + r (45 R134). -/
def xorDraw : List Byte → Nat → Nat → Display → Display
  | [], _, _, d => d
  | row :: rows, x0, y0, d => xorDraw rows x0 (y0 + 1) (xorColumns row x0 y0 columns d)

/-- `collision`: some 1 bit of the sprite lies on a pixel that is on before the draw (45 R135). -/
def collision : List Byte → Nat → Nat → Display → Bool
  | [], _, _, _ => false
  | row :: rows, x0, y0, d =>
    columns.any (fun c => spriteBit row c && Display.pixel d (wrapX (x0 + c)) (wrapY y0)) || collision rows x0 (y0 + 1) d

end Sys2Proof.Machine
end

