-- ==== Sys2Proof/Machine/Display.lean ====
section
/-! DEFINITION. The two instructions that write the display (spec/45_display.md). -/

namespace Sys2Proof.Machine

/-- `00E0` CLS (45 R132): sets the redraw flag even when nothing was lit (92 D18). -/
def execCls (s : State) : Result := .next (s.showDisplay Display.blank).advance

/-- A draw of the fetched rows: coordinates and collision from the state before, then the display, VF and the redraw flag
(45 R136, R137). -/
def State.drawRows (s : State) (x y : Reg) (rows : List Byte) : State :=
  (s.showDisplay (xorDraw rows (s.reg x).toNat (s.reg y).toNat s.disp)).setReg VF
    (flagByte (collision rows (s.reg x).toNat (s.reg y).toNat s.disp))

/-- `Dxyn` DRW Vx, Vy, n (45 R136): MemoryOutOfBounds before anything is written (R133). -/
def execDrw (x y : Reg) (n : Rows) (s : State) : Result :=
  attempt (s.memRead s.indexAddr n.val) s fun rows => (s.drawRows x y rows).advance

end Sys2Proof.Machine
end

