-- ==== Sys2Proof/Machine/IndexMemory.lean ====
section
/-! DEFINITION. The index register and memory transfers (spec/44_index_memory.md). A transfer checks its whole range first and
leaves I as it was (92 D14). -/

namespace Sys2Proof.Machine

/-- `Annn` LD I, nnn (44 R125). -/
def execLdI (nnn : Addr) (s : State) : Result := .next (s.setI (zextAddr nnn)).advance

/-- `Fx1E` ADD I, Vx (44 R126): wraps at 16 bits; VF is not written (92 D13). -/
def execAddI (x : Reg) (s : State) : Result := .next (s.setI (s.I + zextByte (s.reg x))).advance

/-- `Fx29` LD F, Vx (44 R127). -/
def execLdF (x : Reg) (s : State) : Result := .next (s.setI (glyphAddr (s.reg x))).advance

/-- `Fx33` LD B, Vx (44 R128). -/
def execLdB (x : Reg) (s : State) : Result := attempt (s.memWrite s.indexAddr (bcdDigits (s.reg x))) s State.advance

/-- `Fx55` LD [I], Vx (44 R129). -/
def execStoreRegs (x : Reg) (s : State) : Result := attempt (s.memWrite s.indexAddr (s.regBlock x)) s State.advance

/-- `Fx65` LD Vx, [I] (44 R130). -/
def execLoadRegs (x : Reg) (s : State) : Result :=
  attempt (s.memRead s.indexAddr (x.val + 1)) s fun bs => (s.setRegsFrom 0 bs).advance

end Sys2Proof.Machine
end

