-- ==== Sys2Proof/Machine/KeysTimers.lean ====
section
/-! DEFINITION. Keypad and timer instructions (spec/46_keys_timers.md). They see the timers after the tick of their own cycle. -/

namespace Sys2Proof.Machine

/-- `Ex9E` SKP Vx (46 R139): KeyIndexOutOfRange when Vx > 0xF (92 D16). -/
def execSkp (x : Reg) (s : State) : Result := attempt (keyIndex (s.reg x)) s fun k => s.skipIf s.key[k.val]

/-- `ExA1` SKNP Vx (46 R140): KeyIndexOutOfRange when Vx > 0xF (92 D16). -/
def execSknp (x : Reg) (s : State) : Result := attempt (keyIndex (s.reg x)) s fun k => s.skipIf (!s.key[k.val])

/-- `Fx07` LD Vx, DT (46 R141). -/
def execLdVxDT (x : Reg) (s : State) : Result := .next (s.setReg x s.DT).advance

/-- `Fx0A` LD Vx, K (46 R142): the lowest pressed key and one advance, or nothing at all, pc included. -/
def execLdVxK (x : Reg) (s : State) : Result :=
  match s.firstKey with
  | some k => .next (s.setReg x (BitVec.ofNat 8 k.val)).advance
  | none => .next s

/-- `Fx15` LD DT, Vx (46 R143). -/
def execLdDTVx (x : Reg) (s : State) : Result := .next (s.setDT (s.reg x)).advance

/-- `Fx18` LD ST, Vx (46 R144). -/
def execLdSTVx (x : Reg) (s : State) : Result := .next (s.setST (s.reg x)).advance

end Sys2Proof.Machine
end

