-- ==== Sys2Proof/Machine/Skips.lean ====
section
/-! DEFINITION. Conditional skips on registers (spec/42_skips.md). -/

namespace Sys2Proof.Machine

/-- `3xkk` SE Vx, kk (42 R106). -/
def execSeImm (x : Reg) (kk : Byte) (s : State) : Result := .next (s.skipIf (decide (s.reg x = kk)))

/-- `4xkk` SNE Vx, kk (42 R107). -/
def execSneImm (x : Reg) (kk : Byte) (s : State) : Result := .next (s.skipIf (decide (s.reg x ≠ kk)))

/-- `5xy0` SE Vx, Vy (42 R108). -/
def execSeReg (x y : Reg) (s : State) : Result := .next (s.skipIf (decide (s.reg x = s.reg y)))

/-- `9xy0` SNE Vx, Vy (42 R109). -/
def execSneReg (x y : Reg) (s : State) : Result := .next (s.skipIf (decide (s.reg x ≠ s.reg y)))

end Sys2Proof.Machine
end

