-- ==== Sys2Proof/WellFormed.lean ====
section
/-! DEFINITION. Which words are well formed: those that match a row of the opcode map (spec/30_encoding.md R74 to R77), the
map written as masks and fixed bits, apart from the decoder's own dispatch. A term of Instr needs no check of its own: every
operand's type is exactly its field (R72, R73). So the ill-formed things are words, one class for each line of R77. -/

namespace Sys2Proof

/-- One row of the opcode map: the hex pattern, which bits are fixed, and their values (30 R76). -/
structure OpRow where
  pattern : String
  mask : Word
  bits : Word
  deriving DecidableEq, Repr

/-- A word matches a row when its fixed bits have the row's values. -/
def OpRow.matches (r : OpRow) (w : Word) : Bool := w &&& r.mask == r.bits

/-- The row of an instruction (30 R76): its pattern, read as mask and fixed bits. -/
def Instr.row : Instr → OpRow
  | .halt => ⟨"0000", 0xFFFF, 0x0000⟩
  | .cls => ⟨"00E0", 0xFFFF, 0x00E0⟩
  | .ret => ⟨"00EE", 0xFFFF, 0x00EE⟩
  | .jp _ => ⟨"1nnn", 0xF000, 0x1000⟩
  | .call _ => ⟨"2nnn", 0xF000, 0x2000⟩
  | .seImm _ _ => ⟨"3xkk", 0xF000, 0x3000⟩
  | .sneImm _ _ => ⟨"4xkk", 0xF000, 0x4000⟩
  | .seReg _ _ => ⟨"5xy0", 0xF00F, 0x5000⟩
  | .ldImm _ _ => ⟨"6xkk", 0xF000, 0x6000⟩
  | .addImm _ _ => ⟨"7xkk", 0xF000, 0x7000⟩
  | .ldReg _ _ => ⟨"8xy0", 0xF00F, 0x8000⟩
  | .orReg _ _ => ⟨"8xy1", 0xF00F, 0x8001⟩
  | .andReg _ _ => ⟨"8xy2", 0xF00F, 0x8002⟩
  | .xorReg _ _ => ⟨"8xy3", 0xF00F, 0x8003⟩
  | .addReg _ _ => ⟨"8xy4", 0xF00F, 0x8004⟩
  | .sub _ _ => ⟨"8xy5", 0xF00F, 0x8005⟩
  | .shr _ _ => ⟨"8xy6", 0xF00F, 0x8006⟩
  | .subn _ _ => ⟨"8xy7", 0xF00F, 0x8007⟩
  | .shl _ _ => ⟨"8xyE", 0xF00F, 0x800E⟩
  | .sneReg _ _ => ⟨"9xy0", 0xF00F, 0x9000⟩
  | .ldI _ => ⟨"Annn", 0xF000, 0xA000⟩
  | .jpV0 _ => ⟨"Bnnn", 0xF000, 0xB000⟩
  | .rnd _ _ => ⟨"Cxkk", 0xF000, 0xC000⟩
  | .drw _ _ _ => ⟨"Dxyn", 0xF000, 0xD000⟩
  | .skp _ => ⟨"Ex9E", 0xF0FF, 0xE09E⟩
  | .sknp _ => ⟨"ExA1", 0xF0FF, 0xE0A1⟩
  | .ldVxDT _ => ⟨"Fx07", 0xF0FF, 0xF007⟩
  | .ldVxK _ => ⟨"Fx0A", 0xF0FF, 0xF00A⟩
  | .ldDTVx _ => ⟨"Fx15", 0xF0FF, 0xF015⟩
  | .ldSTVx _ => ⟨"Fx18", 0xF0FF, 0xF018⟩
  | .addI _ => ⟨"Fx1E", 0xF0FF, 0xF01E⟩
  | .ldF _ => ⟨"Fx29", 0xF0FF, 0xF029⟩
  | .ldB _ => ⟨"Fx33", 0xF0FF, 0xF033⟩
  | .storeRegs _ => ⟨"Fx55", 0xF0FF, 0xF055⟩
  | .loadRegs _ => ⟨"Fx65", 0xF0FF, 0xF065⟩

/-- One instruction of each row of op 0x0 to 0x7, operands zero. -/
def samples0to7 : List Instr :=
  [.halt, .cls, .ret, .jp 0, .call 0, .seImm 0 0, .sneImm 0 0, .seReg 0 0, .ldImm 0 0, .addImm 0 0]

/-- One instruction of each row of op 0x8 and 0x9. -/
def samples8to9 : List Instr :=
  [.ldReg 0 0, .orReg 0 0, .andReg 0 0, .xorReg 0 0, .addReg 0 0, .sub 0 0, .shr 0 0, .subn 0 0, .shl 0 0, .sneReg 0 0]

/-- One instruction of each row of op 0xA to 0xE. -/
def samplesAtoE : List Instr := [.ldI 0, .jpV0 0, .rnd 0 0, .drw 0 0 0, .skp 0, .sknp 0]

/-- One instruction of each row of op 0xF. -/
def samplesF : List Instr :=
  [.ldVxDT 0, .ldVxK 0, .ldDTVx 0, .ldSTVx 0, .addI 0, .ldF 0, .ldB 0, .storeRegs 0, .loadRegs 0]

/-- One instruction of each row, in the table's order. -/
def rowSamples : List Instr := samples0to7.append (samples8to9.append (samplesAtoE.append samplesF))

/-- The opcode map of 30 R76: the 35 rows. -/
def opcodeMap : List OpRow := rowSamples.map Instr.row

/-- A word is well formed when some row of the opcode map matches it (30 R76, R77). -/
def wellFormedWord (w : Word) : Bool := opcodeMap.any fun r => r.matches w

end Sys2Proof
end

