-- ==== Sys2Proof/Decode.lean ====
section
/-! DEFINITION. The instruction decoder (spec/30_encoding.md): the fields of a word (R72), the dispatch (R75 to R80), total and
rejecting by name; then the encoder, written from the formats (R74) and the opcode map (R76). -/

namespace Sys2Proof

/-- Why bytes decode to no instruction: one name for each line of 30 R77, and one for fewer than two bytes. -/
inductive Reject where
  /-- op 0x0, and the word is none of 0x0000, 0x00E0, 0x00EE (R77, R79). -/
  | op0
  /-- op 0x5 with n ≠ 0. -/
  | op5
  /-- op 0x8 with n outside 0x0 to 0x7 and 0xE. -/
  | op8
  /-- op 0x9 with n ≠ 0. -/
  | op9
  /-- op 0xE with kk outside 0x9E, 0xA1. -/
  | opE
  /-- op 0xF with kk outside its nine values. -/
  | opF
  /-- Fewer than two bytes; no fetch of the engine gives this (40 R86). -/
  | truncated
  deriving DecidableEq, Repr

/-- `op`, bits 15 to 12 (30 R72). -/
def fieldOp (w : Word) : BitVec 4 := w.extractLsb' 12 4

/-- `x`, bits 11 to 8 (30 R72). -/
def fieldX (w : Word) : Reg := (w.extractLsb' 8 4).toFin

/-- `y`, bits 7 to 4 (30 R72). -/
def fieldY (w : Word) : Reg := (w.extractLsb' 4 4).toFin

/-- `n`, bits 3 to 0 (30 R72). -/
def fieldN (w : Word) : Rows := (w.extractLsb' 0 4).toFin

/-- `kk`, bits 7 to 0 (30 R72). -/
def fieldKK (w : Word) : Byte := w.extractLsb' 0 8

/-- `nnn`, bits 11 to 0 (30 R72). -/
def fieldNNN (w : Word) : Addr := w.extractLsb' 0 12

/-- op 0x0: the whole word selects (30 R75). -/
def decodeOp0 (w : Word) : Except Reject Instr :=
  match w.toNat with
  | 0x0000 => .ok .halt
  | 0x00E0 => .ok .cls
  | 0x00EE => .ok .ret
  | _ => .error .op0

/-- op 0x5: n must be 0 (30 R75, 92 D12). -/
def decodeOp5 (w : Word) : Except Reject Instr :=
  match (fieldN w).val with
  | 0x0 => .ok (.seReg (fieldX w) (fieldY w))
  | _ => .error .op5

/-- op 0x8: n selects (30 R75, R76). -/
def decodeOp8 (w : Word) : Except Reject Instr :=
  match (fieldN w).val with
  | 0x0 => .ok (.ldReg (fieldX w) (fieldY w))
  | 0x1 => .ok (.orReg (fieldX w) (fieldY w))
  | 0x2 => .ok (.andReg (fieldX w) (fieldY w))
  | 0x3 => .ok (.xorReg (fieldX w) (fieldY w))
  | 0x4 => .ok (.addReg (fieldX w) (fieldY w))
  | 0x5 => .ok (.sub (fieldX w) (fieldY w))
  | 0x6 => .ok (.shr (fieldX w) (fieldY w))
  | 0x7 => .ok (.subn (fieldX w) (fieldY w))
  | 0xE => .ok (.shl (fieldX w) (fieldY w))
  | _ => .error .op8

/-- op 0x9: n must be 0 (30 R75, 92 D12). -/
def decodeOp9 (w : Word) : Except Reject Instr :=
  match (fieldN w).val with
  | 0x0 => .ok (.sneReg (fieldX w) (fieldY w))
  | _ => .error .op9

/-- op 0xE: kk selects (30 R75). -/
def decodeOpE (w : Word) : Except Reject Instr :=
  match (fieldKK w).toNat with
  | 0x9E => .ok (.skp (fieldX w))
  | 0xA1 => .ok (.sknp (fieldX w))
  | _ => .error .opE

/-- op 0xF: kk selects (30 R75). -/
def decodeOpF (w : Word) : Except Reject Instr :=
  match (fieldKK w).toNat with
  | 0x07 => .ok (.ldVxDT (fieldX w))
  | 0x0A => .ok (.ldVxK (fieldX w))
  | 0x15 => .ok (.ldDTVx (fieldX w))
  | 0x18 => .ok (.ldSTVx (fieldX w))
  | 0x1E => .ok (.addI (fieldX w))
  | 0x29 => .ok (.ldF (fieldX w))
  | 0x33 => .ok (.ldB (fieldX w))
  | 0x55 => .ok (.storeRegs (fieldX w))
  | 0x65 => .ok (.loadRegs (fieldX w))
  | _ => .error .opF

/-- The decoder (30 R75 to R80, 40 R89): every word gives one instruction or a named rejection (`Unknown`). -/
def decode (w : Word) : Except Reject Instr :=
  match (fieldOp w).toNat with
  | 0x0 => decodeOp0 w
  | 0x1 => .ok (.jp (fieldNNN w))
  | 0x2 => .ok (.call (fieldNNN w))
  | 0x3 => .ok (.seImm (fieldX w) (fieldKK w))
  | 0x4 => .ok (.sneImm (fieldX w) (fieldKK w))
  | 0x5 => decodeOp5 w
  | 0x6 => .ok (.ldImm (fieldX w) (fieldKK w))
  | 0x7 => .ok (.addImm (fieldX w) (fieldKK w))
  | 0x8 => decodeOp8 w
  | 0x9 => decodeOp9 w
  | 0xA => .ok (.ldI (fieldNNN w))
  | 0xB => .ok (.jpV0 (fieldNNN w))
  | 0xC => .ok (.rnd (fieldX w) (fieldKK w))
  | 0xD => .ok (.drw (fieldX w) (fieldY w) (fieldN w))
  | 0xE => decodeOpE w
  | _ => decodeOpF w

/-- The big-endian word of two consecutive bytes, the one at the lower address first (20 R63, 40 R87). -/
def wordOfBytes (b0 b1 : Byte) : Word := b0 ++ b1

/-- Decoding any bytes: the first two make the word, the rest is left over (30 R71). -/
def decodeBytes : List Byte → Except Reject (Instr × List Byte)
  | b0 :: b1 :: rest =>
    match decode (wordOfBytes b0 b1) with
    | .ok i => .ok (i, rest)
    | .error r => .error r
  | _ => .error .truncated

/-- Format NNN: op[15:12] nnn[11:0] (30 R74). -/
def wordNNN (op : BitVec 4) (nnn : Addr) : Word := op ++ nnn

/-- Format XKK: op[15:12] x[11:8] kk[7:0] (30 R74); XSS is the same with kk the fixed selector. -/
def wordXKK (op : BitVec 4) (x : Reg) (kk : Byte) : Word := (op ++ (BitVec.ofFin x : BitVec 4)) ++ kk

/-- Format XYN: op[15:12] x[11:8] y[7:4] n[3:0] (30 R74); XYS is the same with n the fixed selector. -/
def wordXYN (op : BitVec 4) (x y : Reg) (n : Rows) : Word :=
  (op ++ (BitVec.ofFin x : BitVec 4)) ++ ((BitVec.ofFin y : BitVec 4) ++ (BitVec.ofFin n : BitVec 4))

/-- The encoder: the one word of an instruction (30 R76, R83). -/
def encode : Instr → Word
  | .halt => 0x0000
  | .cls => 0x00E0
  | .ret => 0x00EE
  | .jp nnn => wordNNN 0x1 nnn
  | .call nnn => wordNNN 0x2 nnn
  | .seImm x kk => wordXKK 0x3 x kk
  | .sneImm x kk => wordXKK 0x4 x kk
  | .seReg x y => wordXYN 0x5 x y 0x0
  | .ldImm x kk => wordXKK 0x6 x kk
  | .addImm x kk => wordXKK 0x7 x kk
  | .ldReg x y => wordXYN 0x8 x y 0x0
  | .orReg x y => wordXYN 0x8 x y 0x1
  | .andReg x y => wordXYN 0x8 x y 0x2
  | .xorReg x y => wordXYN 0x8 x y 0x3
  | .addReg x y => wordXYN 0x8 x y 0x4
  | .sub x y => wordXYN 0x8 x y 0x5
  | .shr x y => wordXYN 0x8 x y 0x6
  | .subn x y => wordXYN 0x8 x y 0x7
  | .shl x y => wordXYN 0x8 x y 0xE
  | .sneReg x y => wordXYN 0x9 x y 0x0
  | .ldI nnn => wordNNN 0xA nnn
  | .jpV0 nnn => wordNNN 0xB nnn
  | .rnd x kk => wordXKK 0xC x kk
  | .drw x y n => wordXYN 0xD x y n
  | .skp x => wordXKK 0xE x 0x9E
  | .sknp x => wordXKK 0xE x 0xA1
  | .ldVxDT x => wordXKK 0xF x 0x07
  | .ldVxK x => wordXKK 0xF x 0x0A
  | .ldDTVx x => wordXKK 0xF x 0x15
  | .ldSTVx x => wordXKK 0xF x 0x18
  | .addI x => wordXKK 0xF x 0x1E
  | .ldF x => wordXKK 0xF x 0x29
  | .ldB x => wordXKK 0xF x 0x33
  | .storeRegs x => wordXKK 0xF x 0x55
  | .loadRegs x => wordXKK 0xF x 0x65

/-- The high byte of a word, which lies at the lower address (20 R63). -/
def highByte (w : Word) : Byte := w.extractLsb' 8 8

/-- The low byte of a word, which lies at the higher address (20 R63). -/
def lowByte (w : Word) : Byte := w.extractLsb' 0 8

/-- The two bytes of an instruction word as memory holds them. -/
def bytesOfWord (w : Word) : List Byte := [highByte w, lowByte w]

/-- The word whose lowest `nbits` bits are `w`'s, the bits above them zero: how opcode_table.json gives a row. -/
def tableWord (nbits w : Nat) : Word := BitVec.ofNat 16 (w % 2 ^ nbits)

/-- What the decoder reads from an instruction whose bits are `w`, numbered as opcode_table.json numbers them. -/
def decodeTableWord (nbits w : Nat) : Option Instr :=
  match decodeBytes (bytesOfWord (tableWord nbits w)) with
  | .ok (i, _) => some i
  | .error _ => none

end Sys2Proof
end

