-- ==== Sys2Proof/Machine/Engine.lean ====
section
/-! DEFINITION. The front of a cycle (spec/40_engine.md R84 to R89, R95, R96): the tick, the fetch with its checks, `last_word`,
the decode. It ends the cycle, or hands one instruction and the state to execute it in to exec (Machine/Step.lean). -/

namespace Sys2Proof.Machine

/-- How the front of a cycle ends: the cycle is over, or an instruction is to be executed. -/
inductive Front where
  | stop (s : State)
  | run (i : Instr) (s : State)
  deriving DecidableEq, Repr

/-- The fetch (40 R86): the program region, then the bounds, then two bytes, big-endian (20 R63). -/
def State.fetch (s : State) : Except Raise Word :=
  if s.config.enforceProgramRegion && decide (s.pc.toNat < 0x200) then .error ⟨.pcOutOfRange, s.pc.toNat⟩
  else
    match rangeFault s.pc.toNat 2 with
    | some r => .error r
    | none => .ok (wordOfBytes (s.readByte s.pc.toNat) (s.readByte (s.pc.toNat + 1)))

/-- Executing `Unknown` (40 R95): the fault under policy Fatal, nothing at all under Stall. -/
def State.unknownWord (s : State) : State :=
  match s.config.unknownPolicy with
  | .fatal => s.raise ⟨.unknownInstruction, 0⟩ (some s.lastWord)
  | .stall => s

/-- The front of a `cycle` (40 R84 to R89). When status is not Running a cycle changes nothing (R85). -/
def State.front (s : State) : Front :=
  match s.status with
  | .running =>
    match s.tick.fetch with
    | .error r => .stop (s.tick.raise r none)
    | .ok w =>
      match decode w with
      | .ok i => .run i (s.tick.setLastWord w)
      | .error _ => .stop (s.tick.setLastWord w).unknownWord
  | .halted => .stop s
  | .faulted _ => .stop s

/-- Whether the fetch at pc passes its checks (40 R86). -/
def State.fetchable (s : State) : Bool :=
  (!s.config.enforceProgramRegion || decide (0x200 ≤ s.pc.toNat)) && decide (s.pc.toNat ≤ 0xFFE)

/-- An instruction placed where the next cycle fetches it: status Running, pc kept if a fetch there passes its checks and 0x200
otherwise, the word's two bytes at pc (log entry 6). -/
def State.placeWord (s : State) (w : Word) : State :=
  let t : State := { s with status := .running, pc := if s.fetchable then s.pc else 0x200 }
  t.writeBytes t.pc.toNat (bytesOfWord w)

end Sys2Proof.Machine
end

