-- ==== Sys2Proof/Machine/Step.lean ====
section
/-! DEFINITION. One step of the model is one `cycle` command (spec/40_engine.md R84): the front of the cycle, then the instruction. -/

namespace Sys2Proof.Machine

/-- One cycle (40 R84 to R90). -/
def step (s : State) : Host.Outcome State Fault Refusal :=
  match s.front with
  | .stop t => .next t
  | .run i t => exec i t

/-- The state with the instruction whose bits are `w` (opcode_table.json's numbering) placed where step fetches next. -/
def State.withFetchWord (s : State) (nbits w : Nat) : State := s.placeWord (tableWord nbits w)

end Sys2Proof.Machine
end

