-- ==== Sys2Proof/Machine/Commands.lean ====
section
/-! DEFINITION. The host's commands (spec/10_state.md R52; 70 R163 to R168) and the block's outputs (10 R53). Each command is one
transaction; `cycle` is Machine/Step.lean's step. -/

namespace Sys2Proof.Machine

/-- The commands of 10 R52. -/
inductive Command where
  | reset
  | load (bs : List Byte)
  | setKey (k : Nat) (pressed : Bool)
  | cycle
  | consumeRedraw
  deriving DecidableEq, Repr

/-- What a command answers (10 R52). -/
inductive Response where
  | none
  | ok
  | romTooLarge
  | badKey
  | redraw (flag : Bool)
  deriving DecidableEq, Repr

/-- `PROGRAM_BASE` (00 R9). -/
def programBase : Nat := 0x200

/-- `MAX_ROM` = 4096 - 512 (00 R9). -/
def maxRom : Nat := 4096 - programBase

/-- `reset()` (70 R164): every piece of state at its reset value. The run's parameters and the count of draws stay (10 R43). -/
def State.hostReset (s : State) : State := State.resetWith s.config s.draws

/-- `load(bs)` (70 R166): the length is checked before the reset, so a rejected load changes nothing (R167, 92 D22). -/
def State.hostLoad (s : State) (bs : List Byte) : State × Response :=
  if bs.length > maxRom then (s, .romTooLarge) else (s.hostReset.writeBytes programBase bs, .ok)

/-- `set_key(k, pressed)` (10 R49, R52): refused when k > 15 (92 D30). -/
def State.hostSetKey (s : State) (k : Nat) (pressed : Bool) : State × Response :=
  if h : k < 16 then ({ s with key := s.key.set k pressed }, .ok) else (s, .badKey)

/-- `consume_redraw` (10 R38, R52): answers the flag and clears it. -/
def State.hostConsumeRedraw (s : State) : State × Response :=
  ({ s with needsRedraw := false }, .redraw s.needsRedraw)

/-- One command (10 R52): the state after it and its answer. -/
def command (c : Command) (s : State) : Host.Outcome (State × Response) Fault Refusal :=
  match c with
  | .reset => .next (s.hostReset, .none)
  | .load bs => .next (s.hostLoad bs)
  | .setKey k p => .next (s.hostSetKey k p)
  | .consumeRedraw => .next s.hostConsumeRedraw
  | .cycle =>
    match step s with
    | .next t => .next (t, .none)
    | .fault r => .fault r
    | .refused r => .refused r

/-- The code of a fault cause (60 R146). -/
def causeCode : Cause → Nat
  | .unknownInstruction => 2
  | .stackOverflow => 3
  | .stackUnderflow => 4
  | .memoryOutOfBounds => 5
  | .pcOutOfRange => 6
  | .keyIndexOutOfRange => 7

/-- The code of a status (60 R146). -/
def statusCode : Status → Nat
  | .running => 0
  | .halted => 1
  | .faulted r => causeCode r.cause

/-- Output `framebuffer` (10 R36, R53): element y*64 + x of the row-major array is pixel (x, y). -/
def State.framebuffer (s : State) : List Bool := (s.disp.toList.map fun row => row.toList).flatten

/-- Output `sound_active` (10 R34, R53). -/
def State.soundActive (s : State) : Bool := decide (s.ST.toNat > 0)

/-- Output `debug_snapshot` (10 R53): registers, and the fields of the last fetched word (30 R72). -/
structure DebugSnapshot where
  pc : Word
  sp : Fin 17
  I : Word
  V : Vector Byte 16
  op : BitVec 4
  x : Reg
  y : Reg
  n : Rows
  kk : Byte
  nnn : Addr
  DT : Byte
  ST : Byte
  stack : Vector Word 16
  deriving DecidableEq, Repr

/-- Reading the snapshot (10 R53, 60 R160): no state changes. -/
def State.debugSnapshot (s : State) : DebugSnapshot :=
  { pc := s.pc, sp := s.sp, I := s.I, V := s.V, op := fieldOp s.lastWord, x := fieldX s.lastWord, y := fieldY s.lastWord,
    n := fieldN s.lastWord, kk := fieldKK s.lastWord, nnn := fieldNNN s.lastWord, DT := s.DT, ST := s.ST, stack := s.stack }

end Sys2Proof.Machine
end

