-- ==== Sys2Proof/Safety.lean ====
section
/-! DEFINITION. The terms claims use: what an instruction may write and its frame, the pc rule of spec/40_engine.md R91 and the
register table of 10 R25 as functions of the instruction, the mask a sprite makes, and the invariant of the machine. -/

namespace Sys2Proof

/-- The registers an instruction reads (the table of 10 R25). -/
def Instr.readsReg (i : Instr) (r : Reg) : Prop :=
  match i with
  | .seImm x _ | .sneImm x _ | .addImm x _ | .shr x _ | .shl x _ | .skp x | .sknp x | .ldDTVx x | .ldSTVx x | .addI x
  | .ldF x | .ldB x => r = x
  | .seReg x y | .sneReg x y | .orReg x y | .andReg x y | .xorReg x y | .addReg x y | .sub x y | .subn x y
  | .drw x y _ => r = x ∨ r = y
  | .ldReg _ y => r = y
  | .jpV0 _ => r = 0
  | .storeRegs x => r ≤ x
  | .halt | .cls | .ret | .jp _ | .call _ | .ldImm _ _ | .rnd _ _ | .ldVxDT _ | .ldVxK _ | .ldI _ | .loadRegs _ => False

/-- The registers an instruction may write (the table of 10 R25). -/
def Instr.writesReg (i : Instr) (r : Reg) : Prop :=
  match i with
  | .ldImm x _ | .addImm x _ | .ldReg x _ | .orReg x _ | .andReg x _ | .xorReg x _ | .rnd x _ | .ldVxDT x | .ldVxK x => r = x
  | .addReg x _ | .sub x _ | .subn x _ | .shr x _ | .shl x _ => r = x ∨ r = VF
  | .drw _ _ _ => r = VF
  | .loadRegs x => r ≤ x
  | .halt | .cls | .ret | .jp _ | .call _ | .seImm _ _ | .sneImm _ _ | .seReg _ _ | .sneReg _ _ | .ldI _ | .jpV0 _
  | .skp _ | .sknp _ | .ldDTVx _ | .ldSTVx _ | .addI _ | .ldF _ | .ldB _ | .storeRegs _ => False

/-- How many bytes of memory an instruction moves through I (20 R66); 0 for one that moves none. -/
def Instr.accessLen : Instr → Nat
  | .drw _ _ n => n.val
  | .ldB _ => 3
  | .storeRegs x => x.val + 1
  | .loadRegs x => x.val + 1
  | .halt | .cls | .ret | .jp _ | .call _ | .seImm _ _ | .sneImm _ _ | .seReg _ _ | .sneReg _ _ | .ldImm _ _ | .addImm _ _
  | .ldReg _ _ | .orReg _ _ | .andReg _ _ | .xorReg _ _ | .addReg _ _ | .sub _ _ | .shr _ _ | .subn _ _ | .shl _ _
  | .ldI _ | .jpV0 _ | .rnd _ _ | .skp _ | .sknp _ | .ldVxDT _ | .ldVxK _ | .ldDTVx _ | .ldSTVx _ | .addI _ | .ldF _ => 0

end Sys2Proof

namespace Sys2Proof.Machine

/-- Which pieces of state an instruction may write. pc is never in it: statements say the next pc themselves. -/
structure Writes where
  regs : List Reg := []
  index : Bool := false
  stackEntries : Bool := false
  sp : Bool := false
  delay : Bool := false
  sound : Bool := false
  display : Bool := false
  status : Bool := false
  draws : Bool := false
  memAt : Nat := 0
  memLen : Nat := 0

/-- Everything outside `w` and pc is as before: registers, I, the stack and sp, the timers, the display with its flag, status,
`last_word`, the keypad, the parameters, and every byte of memory outside the `memLen` bytes at `memAt`. -/
structure Frame (w : Writes) (s t : State) : Prop where
  regs : ∀ r, r ∉ w.regs → t.reg r = s.reg r
  index : w.index = false → t.I = s.I
  stack : w.stackEntries = false → t.stack = s.stack
  sp : w.sp = false → t.sp = s.sp
  delay : w.delay = false → t.DT = s.DT
  sound : w.sound = false → t.ST = s.ST
  display : w.display = false → t.disp = s.disp ∧ t.needsRedraw = s.needsRedraw
  status : w.status = false → t.status = s.status
  draws : w.draws = false → t.draws = s.draws
  key : t.key = s.key
  lastWord : t.lastWord = s.lastWord
  config : t.config = s.config
  memory : ∀ a, a < w.memAt ∨ w.memAt + w.memLen ≤ a → t.readByte a = s.readByte a

/-- The state with a fault recorded at its pc and nothing else changed (60 R147). -/
def State.faultedWith (s : State) (cause : Cause) (word : Option Word) (info : Nat) : State :=
  { s with status := .faulted ⟨cause, s.pc, word, info⟩ }

/-- An outcome with its next state mapped. -/
def mapNext (f : State → State) : Result → Result
  | .next s => .next (f s)
  | .fault r => .fault r
  | .refused r => .refused r

/-- Some key is pressed. -/
def State.anyKey (s : State) : Prop := ∃ k : Fin 16, s.key[k.val] = true

/-- Whether the key numbered by a register value is pressed; false for a value that numbers no key. -/
def State.keyPressed (s : State) (v : Byte) : Prop := ∃ k : Fin 16, k.val = v.toNat ∧ s.key[k.val] = true

/-- The next pc of 40 R91, for an instruction that neither halts nor faults; arithmetic modulo 2^16 (R92). -/
def NextPc (i : Instr) (s : State) (pc' : Word) : Prop :=
  match i with
  | .halt => pc' = s.pc
  | .jp nnn | .call nnn => pc'.toNat = nnn.toNat
  | .jpV0 nnn => pc'.toNat = nnn.toNat + (s.reg 0).toNat
  | .ret => ∃ k : Fin 16, k.val + 1 = s.sp.val ∧ pc' = s.stack[k.val] + 2
  | .seImm x kk => pc' = if s.reg x = kk then s.pc + 4 else s.pc + 2
  | .sneImm x kk => pc' = if s.reg x = kk then s.pc + 2 else s.pc + 4
  | .seReg x y => pc' = if s.reg x = s.reg y then s.pc + 4 else s.pc + 2
  | .sneReg x y => pc' = if s.reg x = s.reg y then s.pc + 2 else s.pc + 4
  | .skp x => (s.keyPressed (s.reg x) → pc' = s.pc + 4) ∧ (¬ s.keyPressed (s.reg x) → pc' = s.pc + 2)
  | .sknp x => (s.keyPressed (s.reg x) → pc' = s.pc + 2) ∧ (¬ s.keyPressed (s.reg x) → pc' = s.pc + 4)
  | .ldVxK _ => (s.anyKey → pc' = s.pc + 2) ∧ (¬ s.anyKey → pc' = s.pc)
  | .cls | .ldImm _ _ | .addImm _ _ | .ldReg _ _ | .orReg _ _ | .andReg _ _ | .xorReg _ _ | .addReg _ _ | .sub _ _
  | .shr _ _ | .subn _ _ | .shl _ _ | .ldI _ | .rnd _ _ | .drw _ _ _ | .ldVxDT _ | .ldDTVx _ | .ldSTVx _ | .addI _
  | .ldF _ | .ldB _ | .storeRegs _ | .loadRegs _ => pc' = s.pc + 2

/-- The pixels under the 1 bits of the n-row sprite at I, drawn at (x0, y0) with wraparound (45 R131, R133, R134). -/
def State.spriteMask (s : State) (n x0 y0 : Nat) (px : Fin 64) (py : Fin 32) : Prop :=
  ∃ r < n, ∃ c < 8, (s.readByte (s.I.toNat + r)).getLsbD (7 - c) = true ∧ px.val = (x0 + c) % 64 ∧ py.val = (y0 + r) % 32

/-- The word at pc: `memory[pc]` in bits 15 to 8, `memory[pc+1]` in bits 7 to 0 (20 R63). -/
def State.wordAtPc (s : State) : Word := s.readByte s.pc.toNat ++ s.readByte (s.pc.toNat + 1)

/-- A fetch at pc passes its checks: inside the program region where that is enforced, and both bytes inside memory (40 R86). -/
def State.FetchOk (s : State) : Prop :=
  (s.config.enforceProgramRegion = true → 0x200 ≤ s.pc.toNat) ∧ s.pc.toNat ≤ 0xFFE

/-- `last_word` is the word that stands in memory at pc, where a fetch passes its checks (40 R86, R88). -/
def State.FetchedAtPc (s : State) : Prop := s.lastWord = s.wordAtPc ∧ s.FetchOk

/-- A fault record agrees with the state it was taken in (60 R146, R147). -/
def FaultAgrees (s : State) (r : FaultRecord) : Prop :=
  r.faultPc = s.pc ∧
  match r.cause with
  | .pcOutOfRange =>
    r.faultWord = none ∧ s.config.enforceProgramRegion = true ∧ s.pc.toNat < 0x200 ∧ r.faultInfo = s.pc.toNat
  | .unknownInstruction =>
    r.faultWord = some s.lastWord ∧ s.FetchedAtPc ∧ wellFormedWord s.lastWord = false ∧ s.config.unknownPolicy = .fatal ∧
      r.faultInfo = 0
  | .stackOverflow =>
    r.faultWord = some s.lastWord ∧ s.FetchedAtPc ∧ (∃ nnn, decode s.lastWord = .ok (.call nnn)) ∧ s.sp = 16 ∧ r.faultInfo = 16
  | .stackUnderflow =>
    r.faultWord = some s.lastWord ∧ s.FetchedAtPc ∧ decode s.lastWord = .ok .ret ∧ s.sp = 0 ∧ r.faultInfo = 0
  | .memoryOutOfBounds =>
    (r.faultWord = none ∧ 0xFFE < s.pc.toNat ∧ r.faultInfo = max s.pc.toNat 0x1000) ∨
    (r.faultWord = some s.lastWord ∧ s.FetchedAtPc ∧ r.faultInfo = max s.I.toNat 0x1000 ∧
      ∃ i, decode s.lastWord = .ok i ∧ 0 < i.accessLen ∧ 0x1000 < s.I.toNat + i.accessLen)
  | .keyIndexOutOfRange =>
    r.faultWord = some s.lastWord ∧ s.FetchedAtPc ∧ 0xF < r.faultInfo ∧
      ∃ x, (decode s.lastWord = .ok (.skp x) ∨ decode s.lastWord = .ok (.sknp x)) ∧ r.faultInfo = (s.reg x).toNat

/-- What status says is true of the state: a halted machine stands on a fetched 0x0000 (41 R99), a faulted one on its fault. -/
def State.StatusAgrees (s : State) : Prop :=
  match s.status with
  | .running => True
  | .halted => s.lastWord = 0x0000 ∧ s.FetchedAtPc
  | .faulted r => FaultAgrees s r

/-- The invariant of the machine: memory is in canonical form and inside the array, and status agrees with the state. -/
def State.Inv (s : State) : Prop := Memory.wf s.base s.mem ∧ s.StatusAgrees

end Sys2Proof.Machine
end

