-- ==== Sys2Proof/Certificates/Slice0/Obligations.lean ====
section
/-! DEFINITION. The statements for the provers, from the numbered rules of spec/. Where a clause rests on a decision the spec marks as
its own (92 Dn), the docstring names it and OBLIGATIONS.json gives the statement basis 'derived'. In the encoding clauses a word
is written as the number its pattern reads as: 0x6000 + 0x100*x + kk for `6xkk`. -/

open Sys2Proof Sys2Proof.Machine

/-! ### Encoding and decoding -/

/-- 30 R74, R76, R83: decoding an instruction's word gives the instruction back, at every operand value its fields admit. -/
def Obligations.DecodeOfEncodeIsInstruction : Prop := ∀ i : Instr, decode (encode i) = .ok i

/-- 30 R72, R76, R83: an instruction stands for one word only, the one it was decoded from. -/
def Obligations.EncodeOfDecodeIsWord : Prop := ∀ (w : Word) (i : Instr), decode w = .ok i → encode i = w

/-- 30 R80 (derived there), R76, R81: the dispatch agrees with the opcode map written as masks: a decoded word lies in its
instruction's row, exactly the words of some row decode, no two rows share a word, and there are 35 rows. -/
def Obligations.DecoderFollowsOpcodeMap : Prop :=
  (∀ (w : Word) (i : Instr), decode w = .ok i → i.row ∈ opcodeMap ∧ i.row.matches w = true) ∧
  (∀ w : Word, (∃ i, decode w = .ok i) ↔ wellFormedWord w = true) ∧
  (∀ w : Word, ∀ r ∈ opcodeMap, ∀ q ∈ opcodeMap, r.matches w = true → q.matches w = true → r = q) ∧
  opcodeMap.length = 35

/-- 30 R77 (derived there; strictness is 92 D12, log entry 18): exactly these words decode to no instruction. -/
def Obligations.UnknownWordsAreExactlyThese : Prop :=
  ∀ w : Word, (∃ r, decode w = .error r) ↔
    (w.toNat / 0x1000 = 0x0 ∧ w ≠ 0x0000 ∧ w ≠ 0x00E0 ∧ w ≠ 0x00EE) ∨
    ((w.toNat / 0x1000 = 0x5 ∨ w.toNat / 0x1000 = 0x9) ∧ w.toNat % 0x10 ≠ 0x0) ∨
    (w.toNat / 0x1000 = 0x8 ∧ w.toNat % 0x10 ∈ [0x8, 0x9, 0xA, 0xB, 0xC, 0xD, 0xF]) ∨
    (w.toNat / 0x1000 = 0xE ∧ w.toNat % 0x100 ∉ [0x9E, 0xA1]) ∨
    (w.toNat / 0x1000 = 0xF ∧ w.toNat % 0x100 ∉ [0x07, 0x0A, 0x15, 0x18, 0x1E, 0x29, 0x33, 0x55, 0x65])

/-- 30 R76: one word of each family, written out from its pattern, decodes to the instruction it stands for. -/
def Obligations.SampleWordsDecode : Prop :=
  decode 0b0000000011101110 = .ok .ret ∧ decode 0b0010101010111100 = .ok (.call 0xABC) ∧
  decode 0b0011000101000010 = .ok (.seImm 0x1 0x42) ∧ decode 0b1001000100100000 = .ok (.sneReg 0x1 0x2) ∧
  decode 0b1000000100100100 = .ok (.addReg 0x1 0x2) ∧ decode 0b1100001100001111 = .ok (.rnd 0x3 0x0F) ∧
  decode 0b1010000100100011 = .ok (.ldI 0x123) ∧ decode 0b1111001101010101 = .ok (.storeRegs 0x3) ∧
  decode 0b1101101010110010 = .ok (.drw 0xA 0xB 0x2) ∧ decode 0b1110000110011110 = .ok (.skp 0x1) ∧
  decode 0b1111001000001010 = .ok (.ldVxK 0x2)

/-! ### The engine -/

/-- 40 R84, R86, R88, R89, R90: when the two bytes at pc decode to an instruction, the cycle is that instruction executed in the state
after the tick with `last_word` the fetched word. The tick before the step is 92 D1 (log entry 8). -/
def Obligations.StepRunsDecodedInstruction : Prop :=
  ∀ (s : State) (i : Instr), s.status = .running → s.FetchOk → decode s.wordAtPc = .ok i →
    ∃ u, step s = exec i u ∧ u.DT.toNat = s.DT.toNat - 1 ∧ u.ST.toNat = s.ST.toNat - 1 ∧
      u = { s with DT := u.DT, ST := u.ST, lastWord := s.wordAtPc }

/-- 20 R63, 40 R88: after a cycle whose fetch passes its checks, `last_word` is `memory[pc]` and `memory[pc+1]` composed big-endian.
That it holds the word even when the instruction then faults is the spec's own choice (92 D29, log entry 26), and so is that an odd
pc fetches like any other (92 D4, log entry 11). -/
def Obligations.FetchIsBigEndian : Prop :=
  ∀ s t : State, s.status = .running → s.FetchOk → step s = .next t →
    t.lastWord.toNat = (s.readByte s.pc.toNat).toNat * 0x100 + (s.readByte (s.pc.toNat + 1)).toNat

/-- 40 R85, 60 R149, R150, 70 R165 (92 D20, D21, log entry 22): a cycle changes nothing unless status is Running, and no command but
`reset` or an accepted `load` changes a halted or faulted status, and then only to Running. -/
def Obligations.StoppedMachineStaysStopped : Prop :=
  ∀ s : State, s.status ≠ .running → step s = .next s ∧
    ∀ (c : Command) (t : State) (r : Response), command c s = .next (t, r) →
      t.status = s.status ∨ (t.status = .running ∧ (c = .reset ∨ ∃ bs, c = .load bs ∧ bs.length ≤ 3584))

/-- 40 R86, R96, 60 R146, R147 (92 D2, D3, log entries 9 and 10): a fetch below the enforced program region, or one that needs a byte
above 0xFFF, records its fault and changes nothing else but the timers' tick. -/
def Obligations.FetchFaultsAreRecorded : Prop :=
  ∀ s : State, s.status = .running →
    (s.config.enforceProgramRegion = true → s.pc.toNat < 0x200 →
      step s = .next (s.tick.faultedWith .pcOutOfRange none s.pc.toNat)) ∧
    (0xFFE < s.pc.toNat → step s = .next (s.tick.faultedWith .memoryOutOfBounds none (max s.pc.toNat 0x1000)))

/-- 40 R95, 60 R162 (92 D5, log entry 12): an unknown word faults under policy Fatal; under Stall the cycle writes only the tick and
`last_word`, and pc stays. -/
def Obligations.UnknownWordFollowsPolicy : Prop :=
  ∀ (s : State) (r : Reject), s.status = .running → s.FetchOk → decode s.wordAtPc = .error r →
    (s.config.unknownPolicy = .fatal →
        step s = .next ({ s.tick with lastWord := s.wordAtPc }.faultedWith .unknownInstruction (some s.wordAtPc) 0)) ∧
      (s.config.unknownPolicy = .stall → step s = .next { s.tick with lastWord := s.wordAtPc })

/-- 60 R156, 40 R84, R85: a tick takes one off each timer and leaves 0 at 0, touching nothing else; every cycle of a running machine
ticks once, so a timer ends one lower unless the cycle's own instruction sets it, and then it ends as the register's value, since the
tick comes first (the spec's own choice, 92 D1, log entry 8); a cycle of a machine that is not running changes nothing, so it does not
tick (the spec's own choice, 92 D21, log entry 22). -/
def Obligations.EveryRunningCycleTicksOnce : Prop :=
  (∀ s : State, s.tick.DT.toNat = s.DT.toNat - 1 ∧ s.tick.ST.toNat = s.ST.toNat - 1 ∧
    s.tick = { s with DT := s.tick.DT, ST := s.tick.ST }) ∧
  (∀ s t : State, s.status = .running → step s = .next t →
    (t.DT.toNat = s.DT.toNat - 1 ∨ ∃ x, decode t.lastWord = .ok (.ldDTVx x) ∧ t.DT = s.reg x) ∧
    (t.ST.toNat = s.ST.toNat - 1 ∨ ∃ x, decode t.lastWord = .ok (.ldSTVx x) ∧ t.ST = s.reg x)) ∧
  (∀ s : State, s.status ≠ .running → step s = .next s)

/-- 60 R145, R147, 40 R94: every cycle of every state ends in a next state, and so does every instruction: faults are recorded in
status, and nothing is refused (log entry 1). -/
def Obligations.EveryCycleAnswersNextState : Prop :=
  (∀ s : State, ∃ t, step s = .next t) ∧ ∀ (i : Instr) (s : State), ∃ t, exec i s = .next t

/-- 40 R93, 60 R147, R148 (92 D25, D26, log entry 25): a faulting cycle leaves pc at the faulting instruction and writes only the
tick, `last_word` when its fetch completed, and the fault record. -/
def Obligations.FaultsArePrecise : Prop :=
  ∀ (s t : State) (r : FaultRecord), s.status = .running → step s = .next t → t.status = .faulted r →
    r.faultPc = s.pc ∧
    ((r.faultWord = none ∧ t = { s.tick with status := .faulted r }) ∨
      (r.faultWord = some s.wordAtPc ∧ t = { s.tick with lastWord := s.wordAtPc, status := .faulted r }))

/-- 10 R44, 70 R163: the state after reset meets the invariant. -/
def Obligations.InvariantHoldsAtReset : Prop := State.reset.Inv

/-- 20 R55, 41 R99, 60 R146, R147: every step keeps the invariant: memory canonical and inside the array, a halted machine on a fetched
0x0000, and a fault record in agreement with the state it was taken in. -/
def Obligations.StepKeepsInvariant : Prop := ∀ s t : State, s.Inv → step s = .next t → t.Inv

/-- 10 R52, 70 R166, R167: every host command keeps the invariant, between cycles as within one. -/
def Obligations.CommandsKeepInvariant : Prop :=
  ∀ (c : Command) (s t : State) (r : Response), s.Inv → command c s = .next (t, r) → t.Inv

/-! ### Whole-machine rules -/

/-- 10 R37: no instruction but `00E0` and `Dxyn` writes the display (or its flag), and none but `Dxyn` reads it. -/
def Obligations.OnlyClsAndDrwTouchDisplay : Prop :=
  (∀ (i : Instr) (s : State) (d : Display) (b : Bool), i ≠ .cls → (∀ x y n, i ≠ .drw x y n) →
    exec i { s with disp := d, needsRedraw := b } =
      mapNext (fun t => { t with disp := d, needsRedraw := b }) (exec i s)) ∧
  ∀ (s : State) (d : Display), exec .cls { s with disp := d } = exec .cls s

/-- 10 R30: no instruction but `2nnn` and `00EE` reads or writes the stack or sp. -/
def Obligations.OnlyCallAndRetTouchStack : Prop :=
  ∀ (i : Instr) (s : State) (stk : Vector Word 16) (p : Fin 17), i ≠ .ret → (∀ nnn, i ≠ .call nnn) →
    exec i { s with stack := stk, sp := p } = mapNext (fun t => { t with stack := stk, sp := p }) (exec i s)

/-- 10 R35, R46: the machine never writes the keypad; `Ex9E`, `ExA1` and `Fx0A` read it and nothing else does; the host's `set_key`
writes it and its `reset` clears it. -/
def Obligations.KeypadBelongsToHost : Prop :=
  (∀ s t : State, step s = .next t → t.key = s.key) ∧
  (∀ (i : Instr) (s : State) (k : Vector Bool 16), (∀ x, i ≠ .skp x ∧ i ≠ .sknp x ∧ i ≠ .ldVxK x) →
    exec i { s with key := k } = mapNext (fun t => { t with key := k }) (exec i s)) ∧
  (∀ (x : Reg) (i : Instr), i = .skp x ∨ i = .sknp x ∨ i = .ldVxK x → ∃ (s : State) (k : Vector Bool 16),
    exec i { s with key := k } ≠ mapNext (fun t => { t with key := k }) (exec i s)) ∧
  (∀ (s : State) (k : Fin 16) (p : Bool), ∃ t, command (.setKey k.val p) s = .next (t, .ok) ∧ t.key[k.val] = p) ∧
  ∀ s : State, ∃ t, command .reset s = .next (t, .none) ∧ ∀ k : Fin 16, t.key[k.val] = false

/-- 10 R26, 20 R56, R66: no instruction but `Annn`, `Fx1E`, `Fx29` writes I, and no instruction but `Fx33` and `Fx55` writes memory
(the host's `reset` and `load` write it too, R56). That `Fx55` and `Fx65` leave I as it was is the spec's own choice (92 D14, log
entry 20). -/
def Obligations.WritersOfIndexAndMemory : Prop :=
  ∀ (i : Instr) (s t : State), exec i s = .next t →
    ((∀ nnn, i ≠ .ldI nnn) → (∀ x, i ≠ .addI x ∧ i ≠ .ldF x) → t.I = s.I) ∧
    ((∀ x, i ≠ .ldB x ∧ i ≠ .storeRegs x) → t.mem = s.mem)

/-- 40 R91, R92: each instruction updates pc by its class. The spec's own choices in it: the sum of `Bnnn` is not masked (41 R104,
92 D23, log entry 30), `Fx0A` advances once with several keys pressed (46 R142, 92 D15, log entry 29), an instruction that faults
leaves pc (40 R93, 92 D25, log entry 25), and so does a word that is no instruction (40 R95, 92 D5, log entry 12). -/
def Obligations.PcFollowsItsClass : Prop :=
  (∀ (i : Instr) (s t : State), s.status = .running → exec i s = .next t →
    ((∃ r, t.status = .faulted r) → t.pc = s.pc) ∧ ((∀ r, t.status ≠ .faulted r) → NextPc i s t.pc)) ∧
  ∀ (s t : State) (r : Reject), step s = .next t → decode t.lastWord = .error r → t.pc = s.pc

/-- 10 R25 (derived there): a register the table does not list as written by the instruction keeps its value. -/
def Obligations.OnlyListedRegistersAreWritten : Prop :=
  ∀ (i : Instr) (s t : State) (r : Reg), exec i s = .next t → ¬i.writesReg r → t.reg r = s.reg r

/-- 10 R25 (derived there): a register the table lists as neither read nor written has no influence: change it before, and the
outcome is the same with that register changed. -/
def Obligations.UnlistedRegistersAreNotRead : Prop :=
  ∀ (i : Instr) (s : State) (r : Reg) (b : Byte), ¬i.readsReg r → ¬i.writesReg r →
    exec i (s.setReg r b) = mapNext (fun t => t.setReg r b) (exec i s)

/-- 20 R57, R58, R67 (92 D2, log entry 9): a write inside the array stores its bytes and changes no other, and reading them back gives
them; a range that leaves the array raises MemoryOutOfBounds with its first address above 0xFFF; reading 0 bytes never faults. -/
def Obligations.MemoryReadsWhatWasWritten : Prop :=
  ∀ (s : State) (a : Nat) (bs : List Byte),
    (a + bs.length ≤ 0x1000 → ∃ t, s.memWrite a bs = .ok t ∧ t = { s with mem := t.mem } ∧
      (∀ x, x < a ∨ a + bs.length ≤ x → t.readByte x = s.readByte x) ∧ t.memRead a bs.length = .ok bs) ∧
    (0 < bs.length → 0x1000 < a + bs.length →
      s.memWrite a bs = .error ⟨.memoryOutOfBounds, max a 0x1000⟩ ∧
      s.memRead a bs.length = .error ⟨.memoryOutOfBounds, max a 0x1000⟩) ∧
    s.memRead a 0 = .ok []

/-- 20 R55 and the model's form of memory (log entry 5): two memories in canonical form that read the same at every address of the
array are the same data. -/
def Obligations.EqualMemoriesAreEqualData : Prop :=
  ∀ (base : Nat → Byte) (m n : Memory), Memory.wf base m → Memory.wf base n →
    (∀ a < 4096, m.read base a = n.read base a) → m = n

/-- 20 R64, R69 (92 D33): code stored by `Fx55` is what the next fetch of its address runs, with nothing executed in between. -/
def Obligations.FetchSeesEarlierStore : Prop :=
  ∀ (s t : State) (x j k : Reg) (i : Instr), exec (.storeRegs x) s = .next t → t.status = .running → k.val = j.val + 1 → k ≤ x →
    t.pc.toNat = s.indexAddr + j.val → (s.config.enforceProgramRegion = true → 0x200 ≤ t.pc.toNat) →
    decode (s.reg j ++ s.reg k) = .ok i → step t = exec i { t.tick with lastWord := s.reg j ++ s.reg k }

/-- 40 R97: a cycle is a function of the block's state, the draws apart: with the count of draws changed it does the same, unless the
word at pc is a `Cxkk`, whose one draw ends under its mask in Vx. -/
def Obligations.OnlyRndReadsADraw : Prop :=
  (∀ (s : State) (n : Nat), (∀ x kk, decode s.wordAtPc ≠ .ok (.rnd x kk)) →
    step { s with draws := n } = mapNext (fun t => { t with draws := n }) (step s)) ∧
  ∀ (x : Reg) (kk : Byte) (s : State), ∃ t, exec (.rnd x kk) s = .next t ∧ t.draws = s.draws + 1 ∧
    t.reg x = Config.randomByte s.draws &&& kk

/-- 10 R43: no command, `cycle` included, changes the parameters of the run. -/
def Obligations.ParametersAreFixed : Prop :=
  ∀ (c : Command) (s t : State) (r : Response), command c s = .next (t, r) → t.config = s.config

/-! ### The host's commands and outputs -/

/-- 70 R163, R164, 10 R44 (status and last_word are the spec's own, 92 D27, D29, log entry 26): what `reset` leaves, from any
state. -/
def Obligations.ResetLeavesResetValues : Prop :=
  ∀ s : State, ∃ t, command .reset s = .next (t, .none) ∧ (∀ r, t.reg r = 0x00) ∧ t.I = 0x0000 ∧ t.pc = 0x200 ∧
    (∀ j : Fin 16, t.stack[j.val] = 0x0000) ∧ t.sp = 0 ∧ t.DT = 0 ∧ t.ST = 0 ∧ (∀ k : Fin 16, t.key[k.val] = false) ∧
    (∀ px py, t.disp.pixel px py = false) ∧ t.needsRedraw = false ∧ t.status = .running ∧ t.lastWord = 0x0000 ∧
    (∀ a : Fin 80, t.readByte a.val = s.config.font[a.val]) ∧ (∀ a, 80 ≤ a → t.readByte a = 0x00)

/-- 70 R166, R167, R168 (92 D22, log entry 23): a ROM of at most 3584 bytes is loaded at 0x200 over the reset state; a longer one is
rejected and changes nothing. -/
def Obligations.LoadAcceptsUpToMaxRom : Prop :=
  ∀ (s : State) (bs : List Byte),
    (bs.length ≤ 3584 → ∃ t, command (.load bs) s = .next (t, .ok) ∧ t = { s.hostReset with mem := t.mem } ∧
      (∀ k : Fin bs.length, t.readByte (0x200 + k.val) = bs[k.val]) ∧
      ∀ a, a < 0x200 ∨ 0x200 + bs.length ≤ a → t.readByte a = s.hostReset.readByte a) ∧
    (3584 < bs.length → command (.load bs) s = .next (s, .romTooLarge))

/-- 10 R38, R49, R52 (92 D30, log entry 24): `set_key` writes one key, or refuses an index above 15; `consume_redraw` answers the flag
and clears it. -/
def Obligations.SetKeyAndConsumeRedraw : Prop :=
  ∀ s : State,
    (∀ (k : Nat) (p : Bool), k ≤ 15 → ∃ t, command (.setKey k p) s = .next (t, .ok) ∧ t = { s with key := t.key } ∧
      ∀ j : Fin 16, t.key[j.val] = if j.val = k then p else s.key[j.val]) ∧
    (∀ (k : Nat) (p : Bool), 15 < k → command (.setKey k p) s = .next (s, .badKey)) ∧
    command .consumeRedraw s = .next ({ s with needsRedraw := false }, .redraw s.needsRedraw)

/-- 10 R34, R36: pixel (x, y) is element y*64 + x of the framebuffer's 2048, and sound is active exactly while ST > 0. -/
def Obligations.FramebufferIsRowMajor : Prop :=
  ∀ s : State, s.framebuffer.length = 2048 ∧
    (∀ (px : Fin 64) (py : Fin 32), s.framebuffer[py.val * 64 + px.val]? = some (s.disp.pixel px py)) ∧
    (s.soundActive = true ↔ 0 < s.ST.toNat)

/-- 10 R53, 30 R72 (92 D29): the debug snapshot shows the registers and the fields of the last fetched word. -/
def Obligations.SnapshotShowsLastWordFields : Prop :=
  ∀ s : State, s.debugSnapshot.pc = s.pc ∧ s.debugSnapshot.sp = s.sp ∧ s.debugSnapshot.I = s.I ∧ s.debugSnapshot.V = s.V ∧
    s.debugSnapshot.DT = s.DT ∧ s.debugSnapshot.ST = s.ST ∧ s.debugSnapshot.stack = s.stack ∧
    s.debugSnapshot.op.toNat = s.lastWord.toNat / 0x1000 ∧ s.debugSnapshot.x.val = s.lastWord.toNat / 0x100 % 0x10 ∧
    s.debugSnapshot.y.val = s.lastWord.toNat / 0x10 % 0x10 ∧ s.debugSnapshot.n.val = s.lastWord.toNat % 0x10 ∧
    s.debugSnapshot.kk.toNat = s.lastWord.toNat % 0x100 ∧ s.debugSnapshot.nnn.toNat = s.lastWord.toNat % 0x1000

/-! ### Control flow -/

/-- 41 R99 (92 D20, log entry 22): `0000` sets status to Halted and leaves pc and everything else. -/
def Obligations.HaltSetsStatusHalted : Prop :=
  decode 0x0000 = .ok .halt ∧
  ∀ s : State, ∃ t, exec .halt s = .next t ∧ t.status = .halted ∧ t.pc = s.pc ∧ Frame { status := true } s t

/-- 41 R100, R101 (the fault and its record: 92 D7, D8, D26, log entries 13, 14, 25): `00EE` pops the top entry and continues 2 past
it; the entry stays. On an empty stack it faults. -/
def Obligations.ReturnPopsAndAdvances : Prop :=
  decode 0x00EE = .ok .ret ∧
  (∀ (s : State) (k : Fin 16), s.sp.val = k.val + 1 → ∃ t, exec .ret s = .next t ∧ t.pc = s.stack[k.val] + 2 ∧
    t.sp.val = k.val ∧ Frame { sp := true } s t) ∧
  ∀ s : State, s.sp = 0 → exec .ret s = .next (s.faultedWith .stackUnderflow (some s.lastWord) 0)

/-- 41 R100, R103 (the fault, its record and the indexing: 92 D6, D8, D26, log entries 13, 14, 25): `2nnn` pushes its own address and
jumps. On a full stack it faults. -/
def Obligations.CallPushesOwnAddress : Prop :=
  ∀ nnn : Addr, decode (BitVec.ofNat 16 (0x2000 + nnn.toNat)) = .ok (.call nnn) ∧
    (∀ (s : State) (k : Fin 16), s.sp.val = k.val → ∃ t, exec (.call nnn) s = .next t ∧ t.pc.toNat = nnn.toNat ∧
      t.sp.val = k.val + 1 ∧ (∀ j : Fin 16, t.stack[j.val] = if j = k then s.pc else s.stack[j.val]) ∧
      Frame { stackEntries := true, sp := true } s t) ∧
    ∀ s : State, s.sp = 16 → exec (.call nnn) s = .next (s.faultedWith .stackOverflow (some s.lastWord) 16)

/-- 41 R102, R104 (no 12-bit mask: 92 D23): `1nnn` jumps to nnn and `Bnnn` to nnn + V0, and nothing else changes. -/
def Obligations.JumpsSetPc : Prop :=
  ∀ (nnn : Addr) (s : State),
    decode (BitVec.ofNat 16 (0x1000 + nnn.toNat)) = .ok (.jp nnn) ∧
    decode (BitVec.ofNat 16 (0xB000 + nnn.toNat)) = .ok (.jpV0 nnn) ∧
    (∃ t, exec (.jp nnn) s = .next t ∧ t.pc.toNat = nnn.toNat ∧ Frame {} s t) ∧
    ∃ t, exec (.jpV0 nnn) s = .next t ∧ t.pc.toNat = nnn.toNat + (s.reg 0x0).toNat ∧ Frame {} s t

/-- 41 R101, R103 (from L1-7): a call and at once a return come back to the instruction after the call with every register, sp and the
entries of the stack below the new one as they were. -/
def Obligations.CallThenReturnComesBack : Prop :=
  ∀ (nnn : Addr) (s : State), s.sp.val < 16 → ∃ t u, exec (.call nnn) s = .next t ∧ exec .ret t = .next u ∧
    u.pc = s.pc + 2 ∧ u.sp = s.sp ∧ (∀ j : Fin 16, j.val < s.sp.val → u.stack[j.val] = s.stack[j.val]) ∧
    Frame { stackEntries := true } s u

/-! ### Skips -/

/-- 42 R106, R107: `3xkk` skips when Vx = kk and `4xkk` when Vx ≠ kk; otherwise pc advances by 2. -/
def Obligations.SkipsOnImmediate : Prop :=
  ∀ (x : Reg) (kk : Byte) (s : State),
    decode (BitVec.ofNat 16 (0x3000 + 0x100 * x.val + kk.toNat)) = .ok (.seImm x kk) ∧
    decode (BitVec.ofNat 16 (0x4000 + 0x100 * x.val + kk.toNat)) = .ok (.sneImm x kk) ∧
    (∃ t, exec (.seImm x kk) s = .next t ∧ t.pc = (if s.reg x = kk then s.pc + 4 else s.pc + 2) ∧ Frame {} s t) ∧
    ∃ t, exec (.sneImm x kk) s = .next t ∧ t.pc = (if s.reg x = kk then s.pc + 2 else s.pc + 4) ∧ Frame {} s t

/-- 42 R108, R109 (that `5xyN` and `9xyN` with N ≠ 0 are no instructions: 92 D12, log entry 18): `5xy0` skips when Vx = Vy and `9xy0`
when they differ. -/
def Obligations.SkipsOnRegisters : Prop :=
  ∀ (x y : Reg) (s : State),
    decode (BitVec.ofNat 16 (0x5000 + 0x100 * x.val + 0x10 * y.val)) = .ok (.seReg x y) ∧
    decode (BitVec.ofNat 16 (0x9000 + 0x100 * x.val + 0x10 * y.val)) = .ok (.sneReg x y) ∧
    (∀ n : Fin 16, n ≠ 0 → (∃ r, decode (BitVec.ofNat 16 (0x5000 + 0x100 * x.val + 0x10 * y.val + n.val)) = .error r) ∧
      ∃ r, decode (BitVec.ofNat 16 (0x9000 + 0x100 * x.val + 0x10 * y.val + n.val)) = .error r) ∧
    (∃ t, exec (.seReg x y) s = .next t ∧ t.pc = (if s.reg x = s.reg y then s.pc + 4 else s.pc + 2) ∧ Frame {} s t) ∧
    ∃ t, exec (.sneReg x y) s = .next t ∧ t.pc = (if s.reg x = s.reg y then s.pc + 2 else s.pc + 4) ∧ Frame {} s t

/-! ### Register loads and arithmetic -/

/-- 43 R111: `6xkk` loads kk into Vx, VF included. -/
def Obligations.LoadImmediateSetsVx : Prop :=
  ∀ (x : Reg) (kk : Byte) (s : State),
    decode (BitVec.ofNat 16 (0x6000 + 0x100 * x.val + kk.toNat)) = .ok (.ldImm x kk) ∧
    ∃ t, exec (.ldImm x kk) s = .next t ∧ t.reg x = kk ∧ t.pc = s.pc + 2 ∧ Frame { regs := [x] } s t

/-- 43 R112: `7xkk` adds kk to Vx modulo 256 and writes no flag. -/
def Obligations.AddImmediateWrapsWithoutFlag : Prop :=
  ∀ (x : Reg) (kk : Byte) (s : State),
    decode (BitVec.ofNat 16 (0x7000 + 0x100 * x.val + kk.toNat)) = .ok (.addImm x kk) ∧
    ∃ t, exec (.addImm x kk) s = .next t ∧ (t.reg x).toNat = ((s.reg x).toNat + kk.toNat) % 256 ∧ t.pc = s.pc + 2 ∧
      Frame { regs := [x] } s t

/-- 43 R113 (its effect is the spec's general knowledge, 92 D10, log entry 16): `8xy0` copies Vy to Vx. -/
def Obligations.LoadRegisterCopies : Prop :=
  ∀ (x y : Reg) (s : State),
    decode (BitVec.ofNat 16 (0x8000 + 0x100 * x.val + 0x10 * y.val)) = .ok (.ldReg x y) ∧
    ∃ t, exec (.ldReg x y) s = .next t ∧ t.reg x = s.reg y ∧ t.pc = s.pc + 2 ∧ Frame { regs := [x] } s t

/-- 43 R114, R115, R116 (the selectors 1, 2, 3 and VF unchanged: 92 D11, log entry 17): the bitwise operations, bit by bit. -/
def Obligations.LogicOperationsAreBitwise : Prop :=
  ∀ (x y : Reg) (s : State),
    decode (BitVec.ofNat 16 (0x8001 + 0x100 * x.val + 0x10 * y.val)) = .ok (.orReg x y) ∧
    decode (BitVec.ofNat 16 (0x8002 + 0x100 * x.val + 0x10 * y.val)) = .ok (.andReg x y) ∧
    decode (BitVec.ofNat 16 (0x8003 + 0x100 * x.val + 0x10 * y.val)) = .ok (.xorReg x y) ∧
    (∃ t, exec (.orReg x y) s = .next t ∧ t.pc = s.pc + 2 ∧ Frame { regs := [x] } s t ∧
      ∀ k : Fin 8, (t.reg x).getLsbD k.val = ((s.reg x).getLsbD k.val || (s.reg y).getLsbD k.val)) ∧
    (∃ t, exec (.andReg x y) s = .next t ∧ t.pc = s.pc + 2 ∧ Frame { regs := [x] } s t ∧
      ∀ k : Fin 8, (t.reg x).getLsbD k.val = ((s.reg x).getLsbD k.val && (s.reg y).getLsbD k.val)) ∧
    ∃ t, exec (.xorReg x y) s = .next t ∧ t.pc = s.pc + 2 ∧ Frame { regs := [x] } s t ∧
      ∀ k : Fin 8, (t.reg x).getLsbD k.val = ((s.reg x).getLsbD k.val != (s.reg y).getLsbD k.val)

/-- 43 R110, R117, R124 (x = F: 92 D9, log entry 15): `8xy4` adds modulo 256, and VF ends as the carry whatever x is. -/
def Obligations.AddRegistersSetsCarry : Prop :=
  ∀ (x y : Reg) (s : State),
    decode (BitVec.ofNat 16 (0x8004 + 0x100 * x.val + 0x10 * y.val)) = .ok (.addReg x y) ∧
    ∃ t, exec (.addReg x y) s = .next t ∧ (x ≠ VF → (t.reg x).toNat = ((s.reg x).toNat + (s.reg y).toNat) % 256) ∧
      t.reg VF = (if 255 < (s.reg x).toNat + (s.reg y).toNat then 0x01 else 0x00) ∧ t.pc = s.pc + 2 ∧
      Frame { regs := [x, VF] } s t

/-- 43 R110, R118, R120, R124, 90 C3 (x = F: 92 D9, log entry 15): SUB and SUBN subtract modulo 256, and VF ends as the strict
comparison of the minuend with the subtrahend, 0 for equal operands. -/
def Obligations.SubtractionsSetGreater : Prop :=
  ∀ (x y : Reg) (s : State),
    decode (BitVec.ofNat 16 (0x8005 + 0x100 * x.val + 0x10 * y.val)) = .ok (.sub x y) ∧
    decode (BitVec.ofNat 16 (0x8007 + 0x100 * x.val + 0x10 * y.val)) = .ok (.subn x y) ∧
    (∃ t, exec (.sub x y) s = .next t ∧ (x ≠ VF → t.reg x = s.reg x - s.reg y) ∧
      t.reg VF = (if (s.reg y).toNat < (s.reg x).toNat then 0x01 else 0x00) ∧ t.pc = s.pc + 2 ∧
      Frame { regs := [x, VF] } s t) ∧
    ∃ t, exec (.subn x y) s = .next t ∧ (x ≠ VF → t.reg x = s.reg y - s.reg x) ∧
      t.reg VF = (if (s.reg x).toNat < (s.reg y).toNat then 0x01 else 0x00) ∧ t.pc = s.pc + 2 ∧
      Frame { regs := [x, VF] } s t

/-- 43 R110, R119, R121 (x = F: 92 D9, log entry 15): SHR and SHL shift Vx by one whatever y is, and VF ends as the bit shifted out. -/
def Obligations.ShiftsSetBitShiftedOut : Prop :=
  ∀ (x y : Reg) (s : State),
    decode (BitVec.ofNat 16 (0x8006 + 0x100 * x.val + 0x10 * y.val)) = .ok (.shr x y) ∧
    decode (BitVec.ofNat 16 (0x800E + 0x100 * x.val + 0x10 * y.val)) = .ok (.shl x y) ∧
    (∃ t, exec (.shr x y) s = .next t ∧ (x ≠ VF → t.reg x = s.reg x >>> 1) ∧
      t.reg VF = (if (s.reg x).getLsbD 0 then 0x01 else 0x00) ∧ t.pc = s.pc + 2 ∧ Frame { regs := [x, VF] } s t) ∧
    ∃ t, exec (.shl x y) s = .next t ∧ (x ≠ VF → t.reg x = s.reg x <<< 1) ∧
      t.reg VF = (if (s.reg x).getLsbD 7 then 0x01 else 0x00) ∧ t.pc = s.pc + 2 ∧ Frame { regs := [x, VF] } s t

/-- 43 R122 (the draw is a free byte: 92 D24, log entry 3): `Cxkk` leaves a drawn byte under the mask in Vx: bits clear in kk are 0,
whatever is drawn. -/
def Obligations.RandomByteStaysUnderMask : Prop :=
  ∀ (x : Reg) (kk : Byte) (s : State),
    decode (BitVec.ofNat 16 (0xC000 + 0x100 * x.val + kk.toNat)) = .ok (.rnd x kk) ∧
    ∃ t, exec (.rnd x kk) s = .next t ∧ t.reg x = Config.randomByte s.draws &&& kk ∧
      (∀ k : Fin 8, kk.getLsbD k.val = false → (t.reg x).getLsbD k.val = false) ∧ t.pc = s.pc + 2 ∧
      Frame { regs := [x], draws := true } s t

/-! ### Index register and memory transfers -/

/-- 44 R125, R127: `Annn` sets I to nnn, and `Fx29` to five times Vx, not masked. -/
def Obligations.LoadIndexAndGlyphAddress : Prop :=
  ∀ (nnn : Addr) (x : Reg) (s : State),
    decode (BitVec.ofNat 16 (0xA000 + nnn.toNat)) = .ok (.ldI nnn) ∧
    decode (BitVec.ofNat 16 (0xF029 + 0x100 * x.val)) = .ok (.ldF x) ∧
    (∃ t, exec (.ldI nnn) s = .next t ∧ t.I.toNat = nnn.toNat ∧ t.pc = s.pc + 2 ∧ Frame { index := true } s t) ∧
    ∃ t, exec (.ldF x) s = .next t ∧ t.I.toNat = (s.reg x).toNat * 5 ∧ t.pc = s.pc + 2 ∧ Frame { index := true } s t

/-- 44 R126 (92 D13, log entry 19): `Fx1E` adds Vx to I modulo 2^16 and writes no flag. -/
def Obligations.AddIndexWrapsWithoutFlag : Prop :=
  ∀ (x : Reg) (s : State),
    decode (BitVec.ofNat 16 (0xF01E + 0x100 * x.val)) = .ok (.addI x) ∧
    ∃ t, exec (.addI x) s = .next t ∧ t.I.toNat = (s.I.toNat + (s.reg x).toNat) % 65536 ∧ t.pc = s.pc + 2 ∧
      Frame { index := true } s t

/-- 44 R128 (the bounds fault: 92 D2, log entry 9): `Fx33` stores the three decimal digits of Vx at I, I+1, I+2, or faults with nothing
written. -/
def Obligations.BcdStoresDecimalDigits : Prop :=
  ∀ (x : Reg) (s : State),
    decode (BitVec.ofNat 16 (0xF033 + 0x100 * x.val)) = .ok (.ldB x) ∧
    (s.indexAddr + 2 ≤ 0xFFF → ∃ t, exec (.ldB x) s = .next t ∧
      (t.readByte s.indexAddr).toNat = (s.reg x).toNat / 100 ∧
      (t.readByte (s.indexAddr + 1)).toNat = (s.reg x).toNat / 10 % 10 ∧
      (t.readByte (s.indexAddr + 2)).toNat = (s.reg x).toNat % 10 ∧ t.pc = s.pc + 2 ∧
      Frame { memAt := s.indexAddr, memLen := 3 } s t) ∧
    (0xFFF < s.indexAddr + 2 → exec (.ldB x) s =
      .next (s.faultedWith .memoryOutOfBounds (some s.lastWord) (max s.indexAddr 0x1000)))

/-- 44 R129 (the bounds fault and I unchanged: 92 D2, D14, log entries 9, 20): `Fx55` stores V0 to Vx at I on, or faults with nothing
written. -/
def Obligations.StoreRegistersCopiesToMemory : Prop :=
  ∀ (x : Reg) (s : State),
    decode (BitVec.ofNat 16 (0xF055 + 0x100 * x.val)) = .ok (.storeRegs x) ∧
    (s.indexAddr + x.val ≤ 0xFFF → ∃ t, exec (.storeRegs x) s = .next t ∧
      (∀ k : Reg, k ≤ x → t.readByte (s.indexAddr + k.val) = s.reg k) ∧ t.pc = s.pc + 2 ∧
      Frame { memAt := s.indexAddr, memLen := x.val + 1 } s t) ∧
    (0xFFF < s.indexAddr + x.val → exec (.storeRegs x) s =
      .next (s.faultedWith .memoryOutOfBounds (some s.lastWord) (max s.indexAddr 0x1000)))

/-- 44 R130 (the bounds fault and I unchanged: 92 D2, D14, log entries 9, 20): `Fx65` loads V0 to Vx from I on and no register above x,
or faults with nothing written. -/
def Obligations.LoadRegistersCopiesFromMemory : Prop :=
  ∀ (x : Reg) (s : State),
    decode (BitVec.ofNat 16 (0xF065 + 0x100 * x.val)) = .ok (.loadRegs x) ∧
    (s.indexAddr + x.val ≤ 0xFFF → ∃ t, exec (.loadRegs x) s = .next t ∧
      (∀ k : Reg, k ≤ x → t.reg k = s.readByte (s.indexAddr + k.val)) ∧ t.pc = s.pc + 2 ∧
      Frame { regs := (List.finRange 16).filter fun r => decide (r ≤ x) } s t) ∧
    (0xFFF < s.indexAddr + x.val → exec (.loadRegs x) s =
      .next (s.faultedWith .memoryOutOfBounds (some s.lastWord) (max s.indexAddr 0x1000)))

/-! ### Display -/

/-- 45 R132 (the flag on a blank display too: 92 D18, log entry 21): `00E0` turns every pixel off and sets the redraw flag. -/
def Obligations.ClearTurnsAllPixelsOff : Prop :=
  decode 0x00E0 = .ok .cls ∧
  ∀ s : State, ∃ t, exec .cls s = .next t ∧ (∀ px py, t.disp.pixel px py = false) ∧ t.needsRedraw = true ∧ t.pc = s.pc + 2 ∧
    Frame { display := true } s t

/-- 45 R131, R133 to R138 (bit order, n = 0, the flag and the bounds fault: 92 D2, D17, D18, D19, log entries 9, 21, 27): the draw
toggles exactly the pixels under the sprite's 1 bits, with wraparound; VF is 1 exactly when one of them was lit; a sprite that
leaves memory faults with nothing written. -/
def Obligations.DrawXorsSpriteMask : Prop :=
  ∀ (x y : Reg) (n : Rows) (s : State),
    decode (BitVec.ofNat 16 (0xD000 + 0x100 * x.val + 0x10 * y.val + n.val)) = .ok (.drw x y n) ∧
    (n = 0 ∨ s.indexAddr + n.val ≤ 0x1000 → ∃ t, exec (.drw x y n) s = .next t ∧
      (∀ px py, s.spriteMask n.val (s.reg x).toNat (s.reg y).toNat px py → t.disp.pixel px py = !s.disp.pixel px py) ∧
      (∀ px py, ¬s.spriteMask n.val (s.reg x).toNat (s.reg y).toNat px py → t.disp.pixel px py = s.disp.pixel px py) ∧
      ((∃ px py, s.spriteMask n.val (s.reg x).toNat (s.reg y).toNat px py ∧ s.disp.pixel px py = true) → t.reg VF = 0x01) ∧
      ((¬∃ px py, s.spriteMask n.val (s.reg x).toNat (s.reg y).toNat px py ∧ s.disp.pixel px py = true) → t.reg VF = 0x00) ∧
      t.needsRedraw = true ∧ t.pc = s.pc + 2 ∧ Frame { regs := [VF], display := true } s t) ∧
    (n ≠ 0 → 0x1000 < s.indexAddr + n.val → exec (.drw x y n) s =
      .next (s.faultedWith .memoryOutOfBounds (some s.lastWord) (max s.indexAddr 0x1000)))

/-- 45 R138 (derived there; bit order 92 D17, log entry 27): after `00E0`, a draw leaves exactly the sprite's 1 bits lit and VF = 0. -/
def Obligations.ClearThenDrawLeavesSprite : Prop :=
  ∀ (x y : Reg) (n : Rows) (s : State), n = 0 ∨ s.indexAddr + n.val ≤ 0x1000 →
    ∃ t u, exec .cls s = .next t ∧ exec (.drw x y n) t = .next u ∧ u.reg VF = 0x00 ∧
      ∀ px py, u.disp.pixel px py = true ↔ s.spriteMask n.val (s.reg x).toNat (s.reg y).toNat px py

/-! ### Keys and timers -/

/-- 46 R139, R140 (the fault: 92 D16, log entry 28): `Ex9E` skips when key Vx is pressed and `ExA1` when it is not; a value above 0xF
faults with nothing written. -/
def Obligations.KeySkipsSampleKey : Prop :=
  ∀ (x : Reg) (s : State),
    decode (BitVec.ofNat 16 (0xE09E + 0x100 * x.val)) = .ok (.skp x) ∧
    decode (BitVec.ofNat 16 (0xE0A1 + 0x100 * x.val)) = .ok (.sknp x) ∧
    (∀ k : Fin 16, (s.reg x).toNat = k.val →
      (∃ t, exec (.skp x) s = .next t ∧ t.pc = (if s.key[k.val] = true then s.pc + 4 else s.pc + 2) ∧ Frame {} s t) ∧
      ∃ t, exec (.sknp x) s = .next t ∧ t.pc = (if s.key[k.val] = true then s.pc + 2 else s.pc + 4) ∧ Frame {} s t) ∧
    (0xF < (s.reg x).toNat →
      exec (.skp x) s = .next (s.faultedWith .keyIndexOutOfRange (some s.lastWord) (s.reg x).toNat) ∧
      exec (.sknp x) s = .next (s.faultedWith .keyIndexOutOfRange (some s.lastWord) (s.reg x).toNat))

/-- 46 R141: `Fx07` copies DT to Vx, and in a cycle that is DT after the cycle's own tick: the tick before the step is the spec's own
choice (92 D1, log entry 8). -/
def Obligations.ReadDelayTimerAfterTick : Prop :=
  ∀ (x : Reg) (s : State),
    decode (BitVec.ofNat 16 (0xF007 + 0x100 * x.val)) = .ok (.ldVxDT x) ∧
    (∃ t, exec (.ldVxDT x) s = .next t ∧ t.reg x = s.DT ∧ t.pc = s.pc + 2 ∧ Frame { regs := [x] } s t) ∧
    (s.status = .running → s.FetchOk →
      decode s.wordAtPc = .ok (.ldVxDT x) →
      ∃ t, step s = .next t ∧ (t.reg x).toNat = s.DT.toNat - 1 ∧ t.DT = t.reg x)

/-- 46 R142 (several keys: 92 D15, log entry 29): with a key pressed, `Fx0A` stores the lowest pressed index and advances once; with none
it changes nothing, pc included. -/
def Obligations.WaitKeyTakesLowestKey : Prop :=
  ∀ (x : Reg) (s : State),
    decode (BitVec.ofNat 16 (0xF00A + 0x100 * x.val)) = .ok (.ldVxK x) ∧
    (∀ k : Fin 16, s.key[k.val] = true → (∀ j : Fin 16, j < k → s.key[j.val] = false) →
      ∃ t, exec (.ldVxK x) s = .next t ∧ (t.reg x).toNat = k.val ∧ t.pc = s.pc + 2 ∧ Frame { regs := [x] } s t) ∧
    ((∀ k : Fin 16, s.key[k.val] = false) → exec (.ldVxK x) s = .next s)

/-- 46 R143, R144, 10 R34, 60 R156: `Fx15` sets DT and `Fx18` sets ST, and sound is then active exactly when Vx > 0; a tick of the
result takes one off the timer set. -/
def Obligations.SetTimersFromRegister : Prop :=
  ∀ (x : Reg) (s : State),
    decode (BitVec.ofNat 16 (0xF015 + 0x100 * x.val)) = .ok (.ldDTVx x) ∧
    decode (BitVec.ofNat 16 (0xF018 + 0x100 * x.val)) = .ok (.ldSTVx x) ∧
    (∃ t, exec (.ldDTVx x) s = .next t ∧ t.DT = s.reg x ∧ t.pc = s.pc + 2 ∧ Frame { delay := true } s t ∧
      t.tick.DT.toNat = (s.reg x).toNat - 1) ∧
    ∃ t, exec (.ldSTVx x) s = .next t ∧ t.ST = s.reg x ∧ t.pc = s.pc + 2 ∧ Frame { sound := true } s t ∧
      (t.soundActive = true ↔ 0 < (s.reg x).toNat) ∧ t.tick.ST.toNat = (s.reg x).toNat - 1
end

