-- ==== Sys2Proof/Laws/Decode.lean ====
section
/-! SUPPORT. The value of a word built in each format (spec/30_encoding.md R74), and the fields the decoder reads from it (R72). -/

namespace Sys2Proof

/-- Concatenation puts the left operand in the high bits (00 R13). -/
theorem toNat_append_mul {m n : Nat} (a : BitVec m) (b : BitVec n) : (a ++ b).toNat = a.toNat * 2 ^ n + b.toNat := by
  rw [BitVec.toNat_append, ← Nat.shiftLeft_add_eq_or_of_lt b.isLt, Nat.shiftLeft_eq]

theorem wordNNN_toNat (op : BitVec 4) (nnn : Addr) : (wordNNN op nnn).toNat = op.toNat * 0x1000 + nnn.toNat :=
  toNat_append_mul op nnn

theorem wordXKK_toNat (op : BitVec 4) (x : Reg) (kk : Byte) :
    (wordXKK op x kk).toNat = op.toNat * 0x1000 + x.val * 0x100 + kk.toNat := by
  have h : (wordXKK op x kk).toNat = (op.toNat * 2 ^ 4 + x.val) * 2 ^ 8 + kk.toNat := by
    unfold wordXKK; rw [toNat_append_mul, toNat_append_mul]; rfl
  rw [h]; ring

theorem wordXYN_toNat (op : BitVec 4) (x y : Reg) (n : Rows) :
    (wordXYN op x y n).toNat = op.toNat * 0x1000 + x.val * 0x100 + y.val * 0x10 + n.val := by
  have h : (wordXYN op x y n).toNat = (op.toNat * 2 ^ 4 + x.val) * 2 ^ 8 + (y.val * 2 ^ 4 + n.val) := by
    unfold wordXYN; rw [toNat_append_mul, toNat_append_mul, toNat_append_mul]; rfl
  rw [h]; ring

theorem fieldOp_toNat (w : Word) : (fieldOp w).toNat = w.toNat / 0x1000 := by
  have := w.isLt
  simp only [fieldOp, BitVec.extractLsb'_toNat, Nat.shiftRight_eq_div_pow]; omega

theorem fieldX_val (w : Word) : (fieldX w).val = w.toNat / 0x100 % 0x10 := by
  show (w.extractLsb' 8 4).toNat = _
  simp only [BitVec.extractLsb'_toNat, Nat.shiftRight_eq_div_pow]

theorem fieldY_val (w : Word) : (fieldY w).val = w.toNat / 0x10 % 0x10 := by
  show (w.extractLsb' 4 4).toNat = _
  simp only [BitVec.extractLsb'_toNat, Nat.shiftRight_eq_div_pow]

theorem fieldN_val (w : Word) : (fieldN w).val = w.toNat % 0x10 := by
  show (w.extractLsb' 0 4).toNat = _
  simp [BitVec.extractLsb'_toNat]

theorem fieldKK_toNat (w : Word) : (fieldKK w).toNat = w.toNat % 0x100 := by
  simp [fieldKK, BitVec.extractLsb'_toNat]

theorem fieldNNN_toNat (w : Word) : (fieldNNN w).toNat = w.toNat % 0x1000 := by
  simp [fieldNNN, BitVec.extractLsb'_toNat]

section
variable (op : BitVec 4) (nnn : Addr) (x y : Reg) (kk : Byte) (n : Rows)

@[simp] theorem fieldOp_wordNNN : fieldOp (wordNNN op nnn) = op := by
  apply BitVec.eq_of_toNat_eq; rw [fieldOp_toNat, wordNNN_toNat]; omega

@[simp] theorem fieldNNN_wordNNN : fieldNNN (wordNNN op nnn) = nnn := by
  apply BitVec.eq_of_toNat_eq; rw [fieldNNN_toNat, wordNNN_toNat]; omega

@[simp] theorem fieldOp_wordXKK : fieldOp (wordXKK op x kk) = op := by
  apply BitVec.eq_of_toNat_eq; rw [fieldOp_toNat, wordXKK_toNat]; omega

@[simp] theorem fieldX_wordXKK : fieldX (wordXKK op x kk) = x := by
  apply Fin.ext; rw [fieldX_val, wordXKK_toNat]; omega

@[simp] theorem fieldKK_wordXKK : fieldKK (wordXKK op x kk) = kk := by
  apply BitVec.eq_of_toNat_eq; rw [fieldKK_toNat, wordXKK_toNat]; omega

@[simp] theorem fieldOp_wordXYN : fieldOp (wordXYN op x y n) = op := by
  apply BitVec.eq_of_toNat_eq; rw [fieldOp_toNat, wordXYN_toNat]; omega

@[simp] theorem fieldX_wordXYN : fieldX (wordXYN op x y n) = x := by
  apply Fin.ext; rw [fieldX_val, wordXYN_toNat]; omega

@[simp] theorem fieldY_wordXYN : fieldY (wordXYN op x y n) = y := by
  apply Fin.ext; rw [fieldY_val, wordXYN_toNat]; omega

@[simp] theorem fieldN_wordXYN : fieldN (wordXYN op x y n) = n := by
  apply Fin.ext; rw [fieldN_val, wordXYN_toNat]; omega

end

/-- The word of two bytes is their concatenation, and its bytes are those two (20 R63). -/
@[simp] theorem wordOfBytes_bytes (w : Word) : wordOfBytes (highByte w) (lowByte w) = w := by
  have := w.isLt
  apply BitVec.eq_of_toNat_eq
  simp only [wordOfBytes, toNat_append_mul, highByte, lowByte, BitVec.extractLsb'_toNat, Nat.shiftRight_eq_div_pow]
  omega

end Sys2Proof
end

