-- ==== Sys2Proof/Laws/State.lean ====
section
/-! SUPPORT. One lemma per field per update of State, all true by rfl, so that no later proof unfolds a record update; then the same
for the register accessor and the byte accessor. -/

namespace Sys2Proof.Machine

section
variable (s : State) (r : Raise) (w : Option Word)
@[simp] theorem State.raise_V : (s.raise r w).V = s.V := rfl
@[simp] theorem State.raise_I : (s.raise r w).I = s.I := rfl
@[simp] theorem State.raise_pc : (s.raise r w).pc = s.pc := rfl
@[simp] theorem State.raise_stack : (s.raise r w).stack = s.stack := rfl
@[simp] theorem State.raise_sp : (s.raise r w).sp = s.sp := rfl
@[simp] theorem State.raise_DT : (s.raise r w).DT = s.DT := rfl
@[simp] theorem State.raise_ST : (s.raise r w).ST = s.ST := rfl
@[simp] theorem State.raise_key : (s.raise r w).key = s.key := rfl
@[simp] theorem State.raise_disp : (s.raise r w).disp = s.disp := rfl
@[simp] theorem State.raise_needsRedraw : (s.raise r w).needsRedraw = s.needsRedraw := rfl
@[simp] theorem State.raise_mem : (s.raise r w).mem = s.mem := rfl
@[simp] theorem State.raise_status : (s.raise r w).status = Status.faulted ⟨r.cause, s.pc, w, r.info⟩ := rfl
@[simp] theorem State.raise_lastWord : (s.raise r w).lastWord = s.lastWord := rfl
@[simp] theorem State.raise_config : (s.raise r w).config = s.config := rfl
@[simp] theorem State.raise_draws : (s.raise r w).draws = s.draws := rfl
end

section
variable (s : State)
@[simp] theorem State.halt_V : s.halt.V = s.V := rfl
@[simp] theorem State.halt_I : s.halt.I = s.I := rfl
@[simp] theorem State.halt_pc : s.halt.pc = s.pc := rfl
@[simp] theorem State.halt_stack : s.halt.stack = s.stack := rfl
@[simp] theorem State.halt_sp : s.halt.sp = s.sp := rfl
@[simp] theorem State.halt_DT : s.halt.DT = s.DT := rfl
@[simp] theorem State.halt_ST : s.halt.ST = s.ST := rfl
@[simp] theorem State.halt_key : s.halt.key = s.key := rfl
@[simp] theorem State.halt_disp : s.halt.disp = s.disp := rfl
@[simp] theorem State.halt_needsRedraw : s.halt.needsRedraw = s.needsRedraw := rfl
@[simp] theorem State.halt_mem : s.halt.mem = s.mem := rfl
@[simp] theorem State.halt_status : s.halt.status = Status.halted := rfl
@[simp] theorem State.halt_lastWord : s.halt.lastWord = s.lastWord := rfl
@[simp] theorem State.halt_config : s.halt.config = s.config := rfl
@[simp] theorem State.halt_draws : s.halt.draws = s.draws := rfl
end

section
variable (s : State) (r : Reg) (b : Byte)
@[simp] theorem State.setReg_V : (s.setReg r b).V = s.V.set r.val b := rfl
@[simp] theorem State.setReg_I : (s.setReg r b).I = s.I := rfl
@[simp] theorem State.setReg_pc : (s.setReg r b).pc = s.pc := rfl
@[simp] theorem State.setReg_stack : (s.setReg r b).stack = s.stack := rfl
@[simp] theorem State.setReg_sp : (s.setReg r b).sp = s.sp := rfl
@[simp] theorem State.setReg_DT : (s.setReg r b).DT = s.DT := rfl
@[simp] theorem State.setReg_ST : (s.setReg r b).ST = s.ST := rfl
@[simp] theorem State.setReg_key : (s.setReg r b).key = s.key := rfl
@[simp] theorem State.setReg_disp : (s.setReg r b).disp = s.disp := rfl
@[simp] theorem State.setReg_needsRedraw : (s.setReg r b).needsRedraw = s.needsRedraw := rfl
@[simp] theorem State.setReg_mem : (s.setReg r b).mem = s.mem := rfl
@[simp] theorem State.setReg_status : (s.setReg r b).status = s.status := rfl
@[simp] theorem State.setReg_lastWord : (s.setReg r b).lastWord = s.lastWord := rfl
@[simp] theorem State.setReg_config : (s.setReg r b).config = s.config := rfl
@[simp] theorem State.setReg_draws : (s.setReg r b).draws = s.draws := rfl
end

section
variable (s : State) (w : Word)
@[simp] theorem State.setI_V : (s.setI w).V = s.V := rfl
@[simp] theorem State.setI_I : (s.setI w).I = w := rfl
@[simp] theorem State.setI_pc : (s.setI w).pc = s.pc := rfl
@[simp] theorem State.setI_stack : (s.setI w).stack = s.stack := rfl
@[simp] theorem State.setI_sp : (s.setI w).sp = s.sp := rfl
@[simp] theorem State.setI_DT : (s.setI w).DT = s.DT := rfl
@[simp] theorem State.setI_ST : (s.setI w).ST = s.ST := rfl
@[simp] theorem State.setI_key : (s.setI w).key = s.key := rfl
@[simp] theorem State.setI_disp : (s.setI w).disp = s.disp := rfl
@[simp] theorem State.setI_needsRedraw : (s.setI w).needsRedraw = s.needsRedraw := rfl
@[simp] theorem State.setI_mem : (s.setI w).mem = s.mem := rfl
@[simp] theorem State.setI_status : (s.setI w).status = s.status := rfl
@[simp] theorem State.setI_lastWord : (s.setI w).lastWord = s.lastWord := rfl
@[simp] theorem State.setI_config : (s.setI w).config = s.config := rfl
@[simp] theorem State.setI_draws : (s.setI w).draws = s.draws := rfl
end

section
variable (s : State) (w : Word)
@[simp] theorem State.setPc_V : (s.setPc w).V = s.V := rfl
@[simp] theorem State.setPc_I : (s.setPc w).I = s.I := rfl
@[simp] theorem State.setPc_pc : (s.setPc w).pc = w := rfl
@[simp] theorem State.setPc_stack : (s.setPc w).stack = s.stack := rfl
@[simp] theorem State.setPc_sp : (s.setPc w).sp = s.sp := rfl
@[simp] theorem State.setPc_DT : (s.setPc w).DT = s.DT := rfl
@[simp] theorem State.setPc_ST : (s.setPc w).ST = s.ST := rfl
@[simp] theorem State.setPc_key : (s.setPc w).key = s.key := rfl
@[simp] theorem State.setPc_disp : (s.setPc w).disp = s.disp := rfl
@[simp] theorem State.setPc_needsRedraw : (s.setPc w).needsRedraw = s.needsRedraw := rfl
@[simp] theorem State.setPc_mem : (s.setPc w).mem = s.mem := rfl
@[simp] theorem State.setPc_status : (s.setPc w).status = s.status := rfl
@[simp] theorem State.setPc_lastWord : (s.setPc w).lastWord = s.lastWord := rfl
@[simp] theorem State.setPc_config : (s.setPc w).config = s.config := rfl
@[simp] theorem State.setPc_draws : (s.setPc w).draws = s.draws := rfl
end

section
variable (s : State) (b : Byte)
@[simp] theorem State.setDT_V : (s.setDT b).V = s.V := rfl
@[simp] theorem State.setDT_I : (s.setDT b).I = s.I := rfl
@[simp] theorem State.setDT_pc : (s.setDT b).pc = s.pc := rfl
@[simp] theorem State.setDT_stack : (s.setDT b).stack = s.stack := rfl
@[simp] theorem State.setDT_sp : (s.setDT b).sp = s.sp := rfl
@[simp] theorem State.setDT_DT : (s.setDT b).DT = b := rfl
@[simp] theorem State.setDT_ST : (s.setDT b).ST = s.ST := rfl
@[simp] theorem State.setDT_key : (s.setDT b).key = s.key := rfl
@[simp] theorem State.setDT_disp : (s.setDT b).disp = s.disp := rfl
@[simp] theorem State.setDT_needsRedraw : (s.setDT b).needsRedraw = s.needsRedraw := rfl
@[simp] theorem State.setDT_mem : (s.setDT b).mem = s.mem := rfl
@[simp] theorem State.setDT_status : (s.setDT b).status = s.status := rfl
@[simp] theorem State.setDT_lastWord : (s.setDT b).lastWord = s.lastWord := rfl
@[simp] theorem State.setDT_config : (s.setDT b).config = s.config := rfl
@[simp] theorem State.setDT_draws : (s.setDT b).draws = s.draws := rfl
end

section
variable (s : State) (b : Byte)
@[simp] theorem State.setST_V : (s.setST b).V = s.V := rfl
@[simp] theorem State.setST_I : (s.setST b).I = s.I := rfl
@[simp] theorem State.setST_pc : (s.setST b).pc = s.pc := rfl
@[simp] theorem State.setST_stack : (s.setST b).stack = s.stack := rfl
@[simp] theorem State.setST_sp : (s.setST b).sp = s.sp := rfl
@[simp] theorem State.setST_DT : (s.setST b).DT = s.DT := rfl
@[simp] theorem State.setST_ST : (s.setST b).ST = b := rfl
@[simp] theorem State.setST_key : (s.setST b).key = s.key := rfl
@[simp] theorem State.setST_disp : (s.setST b).disp = s.disp := rfl
@[simp] theorem State.setST_needsRedraw : (s.setST b).needsRedraw = s.needsRedraw := rfl
@[simp] theorem State.setST_mem : (s.setST b).mem = s.mem := rfl
@[simp] theorem State.setST_status : (s.setST b).status = s.status := rfl
@[simp] theorem State.setST_lastWord : (s.setST b).lastWord = s.lastWord := rfl
@[simp] theorem State.setST_config : (s.setST b).config = s.config := rfl
@[simp] theorem State.setST_draws : (s.setST b).draws = s.draws := rfl
end

section
variable (s : State) (d : Display)
@[simp] theorem State.showDisplay_V : (s.showDisplay d).V = s.V := rfl
@[simp] theorem State.showDisplay_I : (s.showDisplay d).I = s.I := rfl
@[simp] theorem State.showDisplay_pc : (s.showDisplay d).pc = s.pc := rfl
@[simp] theorem State.showDisplay_stack : (s.showDisplay d).stack = s.stack := rfl
@[simp] theorem State.showDisplay_sp : (s.showDisplay d).sp = s.sp := rfl
@[simp] theorem State.showDisplay_DT : (s.showDisplay d).DT = s.DT := rfl
@[simp] theorem State.showDisplay_ST : (s.showDisplay d).ST = s.ST := rfl
@[simp] theorem State.showDisplay_key : (s.showDisplay d).key = s.key := rfl
@[simp] theorem State.showDisplay_disp : (s.showDisplay d).disp = d := rfl
@[simp] theorem State.showDisplay_needsRedraw : (s.showDisplay d).needsRedraw = true := rfl
@[simp] theorem State.showDisplay_mem : (s.showDisplay d).mem = s.mem := rfl
@[simp] theorem State.showDisplay_status : (s.showDisplay d).status = s.status := rfl
@[simp] theorem State.showDisplay_lastWord : (s.showDisplay d).lastWord = s.lastWord := rfl
@[simp] theorem State.showDisplay_config : (s.showDisplay d).config = s.config := rfl
@[simp] theorem State.showDisplay_draws : (s.showDisplay d).draws = s.draws := rfl
end

section
variable (s : State) (w : Word)
@[simp] theorem State.setLastWord_V : (s.setLastWord w).V = s.V := rfl
@[simp] theorem State.setLastWord_I : (s.setLastWord w).I = s.I := rfl
@[simp] theorem State.setLastWord_pc : (s.setLastWord w).pc = s.pc := rfl
@[simp] theorem State.setLastWord_stack : (s.setLastWord w).stack = s.stack := rfl
@[simp] theorem State.setLastWord_sp : (s.setLastWord w).sp = s.sp := rfl
@[simp] theorem State.setLastWord_DT : (s.setLastWord w).DT = s.DT := rfl
@[simp] theorem State.setLastWord_ST : (s.setLastWord w).ST = s.ST := rfl
@[simp] theorem State.setLastWord_key : (s.setLastWord w).key = s.key := rfl
@[simp] theorem State.setLastWord_disp : (s.setLastWord w).disp = s.disp := rfl
@[simp] theorem State.setLastWord_needsRedraw : (s.setLastWord w).needsRedraw = s.needsRedraw := rfl
@[simp] theorem State.setLastWord_mem : (s.setLastWord w).mem = s.mem := rfl
@[simp] theorem State.setLastWord_status : (s.setLastWord w).status = s.status := rfl
@[simp] theorem State.setLastWord_lastWord : (s.setLastWord w).lastWord = w := rfl
@[simp] theorem State.setLastWord_config : (s.setLastWord w).config = s.config := rfl
@[simp] theorem State.setLastWord_draws : (s.setLastWord w).draws = s.draws := rfl
end

section
variable (s : State) (a : Nat) (bs : List Byte)
@[simp] theorem State.writeBytes_V : (s.writeBytes a bs).V = s.V := rfl
@[simp] theorem State.writeBytes_I : (s.writeBytes a bs).I = s.I := rfl
@[simp] theorem State.writeBytes_pc : (s.writeBytes a bs).pc = s.pc := rfl
@[simp] theorem State.writeBytes_stack : (s.writeBytes a bs).stack = s.stack := rfl
@[simp] theorem State.writeBytes_sp : (s.writeBytes a bs).sp = s.sp := rfl
@[simp] theorem State.writeBytes_DT : (s.writeBytes a bs).DT = s.DT := rfl
@[simp] theorem State.writeBytes_ST : (s.writeBytes a bs).ST = s.ST := rfl
@[simp] theorem State.writeBytes_key : (s.writeBytes a bs).key = s.key := rfl
@[simp] theorem State.writeBytes_disp : (s.writeBytes a bs).disp = s.disp := rfl
@[simp] theorem State.writeBytes_needsRedraw : (s.writeBytes a bs).needsRedraw = s.needsRedraw := rfl
@[simp] theorem State.writeBytes_mem : (s.writeBytes a bs).mem = s.mem.writeList s.base a bs := rfl
@[simp] theorem State.writeBytes_status : (s.writeBytes a bs).status = s.status := rfl
@[simp] theorem State.writeBytes_lastWord : (s.writeBytes a bs).lastWord = s.lastWord := rfl
@[simp] theorem State.writeBytes_config : (s.writeBytes a bs).config = s.config := rfl
@[simp] theorem State.writeBytes_draws : (s.writeBytes a bs).draws = s.draws := rfl
end

section
variable (s : State)
@[simp] theorem State.tick_V : s.tick.V = s.V := rfl
@[simp] theorem State.tick_I : s.tick.I = s.I := rfl
@[simp] theorem State.tick_pc : s.tick.pc = s.pc := rfl
@[simp] theorem State.tick_stack : s.tick.stack = s.stack := rfl
@[simp] theorem State.tick_sp : s.tick.sp = s.sp := rfl
@[simp] theorem State.tick_DT : s.tick.DT = countDown s.DT := rfl
@[simp] theorem State.tick_ST : s.tick.ST = countDown s.ST := rfl
@[simp] theorem State.tick_key : s.tick.key = s.key := rfl
@[simp] theorem State.tick_disp : s.tick.disp = s.disp := rfl
@[simp] theorem State.tick_needsRedraw : s.tick.needsRedraw = s.needsRedraw := rfl
@[simp] theorem State.tick_mem : s.tick.mem = s.mem := rfl
@[simp] theorem State.tick_status : s.tick.status = s.status := rfl
@[simp] theorem State.tick_lastWord : s.tick.lastWord = s.lastWord := rfl
@[simp] theorem State.tick_config : s.tick.config = s.config := rfl
@[simp] theorem State.tick_draws : s.tick.draws = s.draws := rfl
end

section
variable (s : State) (c : Cause) (w : Option Word) (n : Nat)
@[simp] theorem State.faultedWith_V : (s.faultedWith c w n).V = s.V := rfl
@[simp] theorem State.faultedWith_I : (s.faultedWith c w n).I = s.I := rfl
@[simp] theorem State.faultedWith_pc : (s.faultedWith c w n).pc = s.pc := rfl
@[simp] theorem State.faultedWith_stack : (s.faultedWith c w n).stack = s.stack := rfl
@[simp] theorem State.faultedWith_sp : (s.faultedWith c w n).sp = s.sp := rfl
@[simp] theorem State.faultedWith_DT : (s.faultedWith c w n).DT = s.DT := rfl
@[simp] theorem State.faultedWith_ST : (s.faultedWith c w n).ST = s.ST := rfl
@[simp] theorem State.faultedWith_key : (s.faultedWith c w n).key = s.key := rfl
@[simp] theorem State.faultedWith_disp : (s.faultedWith c w n).disp = s.disp := rfl
@[simp] theorem State.faultedWith_needsRedraw : (s.faultedWith c w n).needsRedraw = s.needsRedraw := rfl
@[simp] theorem State.faultedWith_mem : (s.faultedWith c w n).mem = s.mem := rfl
@[simp] theorem State.faultedWith_status : (s.faultedWith c w n).status = Status.faulted ⟨c, s.pc, w, n⟩ := rfl
@[simp] theorem State.faultedWith_lastWord : (s.faultedWith c w n).lastWord = s.lastWord := rfl
@[simp] theorem State.faultedWith_config : (s.faultedWith c w n).config = s.config := rfl
@[simp] theorem State.faultedWith_draws : (s.faultedWith c w n).draws = s.draws := rfl
end

/-- Reading a register after writing one. -/
theorem State.reg_setReg (s : State) (x r : Reg) (b : Byte) : (s.setReg x b).reg r = if r = x then b else s.reg r := by
  simp only [State.reg, State.setReg, Vector.getElem_set, Fin.ext_iff, eq_comm]

@[simp] theorem State.reg_setReg_self (s : State) (x : Reg) (b : Byte) : (s.setReg x b).reg x = b := by
  simp [State.reg_setReg]

theorem State.reg_setReg_ne (s : State) {x r : Reg} (b : Byte) (h : r ≠ x) : (s.setReg x b).reg r = s.reg r := by
  simp [State.reg_setReg, h]

/-- Two states agree on a register when they agree on V. -/
theorem State.reg_congr {s t : State} (h : t.V = s.V) (r : Reg) : t.reg r = s.reg r := by simp [State.reg, h]

@[simp] theorem State.raise_reg (s : State) (r : Raise) (w : Option Word) (q : Reg) : (s.raise r w).reg q = s.reg q := rfl
@[simp] theorem State.halt_reg (s : State) (q : Reg) : s.halt.reg q = s.reg q := rfl
@[simp] theorem State.setI_reg (s : State) (w : Word) (q : Reg) : (s.setI w).reg q = s.reg q := rfl
@[simp] theorem State.setPc_reg (s : State) (w : Word) (q : Reg) : (s.setPc w).reg q = s.reg q := rfl
@[simp] theorem State.setDT_reg (s : State) (b : Byte) (q : Reg) : (s.setDT b).reg q = s.reg q := rfl
@[simp] theorem State.setST_reg (s : State) (b : Byte) (q : Reg) : (s.setST b).reg q = s.reg q := rfl
@[simp] theorem State.showDisplay_reg (s : State) (d : Display) (q : Reg) : (s.showDisplay d).reg q = s.reg q := rfl
@[simp] theorem State.setLastWord_reg (s : State) (w : Word) (q : Reg) : (s.setLastWord w).reg q = s.reg q := rfl
@[simp] theorem State.writeBytes_reg (s : State) (a : Nat) (bs : List Byte) (q : Reg) : (s.writeBytes a bs).reg q = s.reg q := rfl
@[simp] theorem State.tick_reg (s : State) (q : Reg) : s.tick.reg q = s.reg q := rfl
@[simp] theorem State.faultedWith_reg (s : State) (c : Cause) (w : Option Word) (n : Nat) (q : Reg) : (s.faultedWith c w n).reg q = s.reg q := rfl

@[simp] theorem State.raise_readByte (s : State) (r : Raise) (w : Option Word) (a : Nat) : (s.raise r w).readByte a = s.readByte a := rfl
@[simp] theorem State.halt_readByte (s : State) (a : Nat) : s.halt.readByte a = s.readByte a := rfl
@[simp] theorem State.setReg_readByte (s : State) (r : Reg) (b : Byte) (a : Nat) : (s.setReg r b).readByte a = s.readByte a := rfl
@[simp] theorem State.setI_readByte (s : State) (w : Word) (a : Nat) : (s.setI w).readByte a = s.readByte a := rfl
@[simp] theorem State.setPc_readByte (s : State) (w : Word) (a : Nat) : (s.setPc w).readByte a = s.readByte a := rfl
@[simp] theorem State.setDT_readByte (s : State) (b : Byte) (a : Nat) : (s.setDT b).readByte a = s.readByte a := rfl
@[simp] theorem State.setST_readByte (s : State) (b : Byte) (a : Nat) : (s.setST b).readByte a = s.readByte a := rfl
@[simp] theorem State.showDisplay_readByte (s : State) (d : Display) (a : Nat) : (s.showDisplay d).readByte a = s.readByte a := rfl
@[simp] theorem State.setLastWord_readByte (s : State) (w : Word) (a : Nat) : (s.setLastWord w).readByte a = s.readByte a := rfl
@[simp] theorem State.tick_readByte (s : State) (a : Nat) : s.tick.readByte a = s.readByte a := rfl
@[simp] theorem State.faultedWith_readByte (s : State) (c : Cause) (w : Option Word) (n : Nat) (a : Nat) : (s.faultedWith c w n).readByte a = s.readByte a := rfl

@[simp] theorem State.writeBytes_base (s : State) (a : Nat) (bs : List Byte) : (s.writeBytes a bs).base = s.base := rfl

theorem State.advance_eq (s : State) : s.advance = s.setPc (s.pc + 2) := rfl

/-- A skip is a pc update, one way or the other (42 R105). -/
theorem State.skipIf_eq (s : State) (c : Bool) : s.skipIf c = s.setPc (if c then s.pc + 4 else s.pc + 2) := by
  cases c <;> rfl

end Sys2Proof.Machine
end

