-- ==== Sys2Proof/Laws/Memory.lean ====
section
/-! SUPPORT. What reading and writing memory do (spec/20_memory.md R57, R58, R67), and that every memory operation keeps the
canonical form. -/

namespace Sys2Proof.Machine

variable (base : Nat → Byte)

theorem Memory.mem_erase (m : Memory) (a : Nat) (c : Host.Cell) : c ∈ m.erase a ↔ c ∈ m ∧ c.1 ≠ a := by
  simp [Memory.erase]

theorem Memory.mem_insert (a : Nat) (b : Byte) (m : Memory) (c : Host.Cell) :
    c ∈ Memory.insert a b m ↔ c = (a, b) ∨ c ∈ m := by
  induction m with
  | nil => simp [Memory.insert]
  | cons d m ih =>
    unfold Memory.insert
    split <;> simp only [List.mem_cons, ih]
    tauto

theorem Memory.read_of_not_listed (m : Memory) (a : Nat) (h : ∀ c ∈ m, c.1 ≠ a) : m.read base a = base a := by
  induction m with
  | nil => rfl
  | cons c m ih =>
    rw [Memory.read, if_neg (h c (by simp)), ih fun d hd => h d (by simp [hd])]

theorem Memory.read_erase_ne (m : Memory) {a x : Nat} (h : x ≠ a) : (m.erase a).read base x = m.read base x := by
  induction m with
  | nil => rfl
  | cons c m ih =>
    obtain ⟨k, b⟩ := c
    simp only [Memory.erase, List.filter_cons, ne_eq, decide_not] at ih ⊢
    by_cases hk : k = a
    · simp [hk, Memory.read, Ne.symm h, ih]
    · simp [hk, Memory.read, ih]

theorem Memory.read_insert (m : Memory) (a x : Nat) (b : Byte) (h : ∀ c ∈ m, c.1 ≠ a) :
    (Memory.insert a b m).read base x = if x = a then b else m.read base x := by
  induction m with
  | nil => simp [Memory.insert, Memory.read, eq_comm]
  | cons c m ih =>
    obtain ⟨k, d⟩ := c
    have hk : k ≠ a := h (k, d) (by simp)
    unfold Memory.insert
    split
    · simp [Memory.read, eq_comm]
    · rw [Memory.read, ih fun e he => h e (by simp [he])]
      by_cases hx : k = x
      · subst hx; simp [hk, Memory.read]
      · simp [hx, Memory.read]

/-- Reading after writing one byte: the byte at its address, and every other address as before. -/
theorem Memory.read_write (m : Memory) (a x : Nat) (b : Byte) :
    (m.write base a b).read base x = if x = a then b else m.read base x := by
  have hn : ∀ c ∈ m.erase a, c.1 ≠ a := fun c hc => ((Memory.mem_erase m a c).1 hc).2
  unfold Memory.write
  by_cases hx : x = a
  · subst hx
    split
    · simp [Memory.read_of_not_listed base _ _ hn, *]
    · simp [Memory.read_insert base _ _ _ _ hn]
  · split
    · exact Memory.read_erase_ne base m hx
    · simp [Memory.read_insert base _ _ _ _ hn, hx, Memory.read_erase_ne base m hx]

/-- Reading after writing consecutive bytes. -/
theorem Memory.read_writeList (bs : List Byte) (m : Memory) (a x : Nat) :
    (m.writeList base a bs).read base x = if a ≤ x then bs.getD (x - a) (m.read base x) else m.read base x := by
  induction bs generalizing m a with
  | nil => simp [Memory.writeList]
  | cons b bs ih =>
    rw [Memory.writeList, ih, Memory.read_write]
    rcases Nat.lt_trichotomy x a with h | h | h
    · rw [if_neg (by omega), if_neg (by omega), if_neg (by omega)]
    · subst h; simp
    · obtain ⟨d, rfl⟩ : ∃ d, x = a + 1 + d := ⟨x - (a + 1), by omega⟩
      simp [show a + 1 + d - a = d + 1 by omega, show a + 1 ≤ a + 1 + d by omega, show a ≤ a + 1 + d by omega,
        show a + 1 + d ≠ a by omega]

theorem Memory.erase_wf {m : Memory} (a : Nat) (h : Memory.wf base m) : Memory.wf base (m.erase a) :=
  ⟨h.1.filter _, fun c hc => h.2 c ((Memory.mem_erase m a c).1 hc).1⟩

theorem Memory.insert_sorted {m : Memory} (a : Nat) (b : Byte) (h : m.Pairwise fun c d => c.1 < d.1)
    (hn : ∀ c ∈ m, c.1 ≠ a) : (Memory.insert a b m).Pairwise fun c d => c.1 < d.1 := by
  induction m with
  | nil => simp [Memory.insert]
  | cons c m ih =>
    obtain ⟨k, d⟩ := c
    obtain ⟨hc, hm⟩ := List.pairwise_cons.1 h
    have hk : k ≠ a := hn (k, d) (by simp)
    unfold Memory.insert
    split
    · next hlt =>
      refine List.pairwise_cons.2 ⟨fun e he => ?_, h⟩
      rcases List.mem_cons.1 he with rfl | he
      · exact hlt
      · exact Nat.lt_trans hlt (hc e he)
    · next hge =>
      refine List.pairwise_cons.2 ⟨fun e he => ?_, ih hm fun e he => hn e (by simp [he])⟩
      rcases (Memory.mem_insert a b m e).1 he with rfl | he
      · show k < a; omega
      · exact hc e he

/-- Writing a byte inside the array keeps the canonical form. -/
theorem Memory.write_wf {m : Memory} {a : Nat} (b : Byte) (ha : a < 4096) (h : Memory.wf base m) :
    Memory.wf base (m.write base a b) := by
  have he := Memory.erase_wf base a h
  have hn : ∀ c ∈ m.erase a, c.1 ≠ a := fun c hc => ((Memory.mem_erase m a c).1 hc).2
  unfold Memory.write
  split
  · exact he
  · next hb =>
    refine ⟨Memory.insert_sorted a b he.1 hn, fun c hc => ?_⟩
    rcases (Memory.mem_insert a b _ c).1 hc with rfl | hc
    · exact ⟨ha, hb⟩
    · exact he.2 c hc

/-- Writing consecutive bytes inside the array keeps the canonical form. -/
theorem Memory.writeList_wf (bs : List Byte) {m : Memory} {a : Nat} (ha : a + bs.length ≤ 4096) (h : Memory.wf base m) :
    Memory.wf base (m.writeList base a bs) := by
  induction bs generalizing m a with
  | nil => exact h
  | cons b bs ih =>
    simp only [List.length_cons] at ha
    exact ih (by omega) (Memory.write_wf base b (by omega) h)

/-- Reset memory is in canonical form under every setting of the parameters. -/
theorem State.resetWith_mem_wf (c : Config) (n : Nat) : Memory.wf (State.resetWith c n).base (State.resetWith c n).mem :=
  ⟨List.Pairwise.nil, by simp [State.resetWith]⟩

/-- A byte after the bytes `bs` are written at a. -/
theorem State.readByte_writeBytes (s : State) (a x : Nat) (bs : List Byte) :
    (s.writeBytes a bs).readByte x = if a ≤ x then bs.getD (x - a) (s.readByte x) else s.readByte x :=
  Memory.read_writeList s.base bs s.mem a x

/-- A byte outside the written ones is as before. -/
theorem State.readByte_writeBytes_outside (s : State) {a x : Nat} (bs : List Byte) (h : x < a ∨ a + bs.length ≤ x) :
    (s.writeBytes a bs).readByte x = s.readByte x := by
  rw [State.readByte_writeBytes]
  rcases h with h | h
  · rw [if_neg (by omega)]
  · rw [if_pos (by omega), List.getD_eq_default _ _ (by omega)]

/-- A written byte reads as written. -/
theorem State.readByte_writeBytes_inside (s : State) (a k : Nat) (bs : List Byte) (h : k < bs.length) :
    (s.writeBytes a bs).readByte (a + k) = bs[k] := by
  rw [State.readByte_writeBytes, if_pos (by omega)]
  simp [h]

theorem State.readBytes_length (s : State) (a n : Nat) : (s.readBytes a n).length = n := by
  induction n generalizing a with
  | zero => rfl
  | succ n ih => simp [State.readBytes, ih]

theorem State.readBytes_getElem (s : State) (a n k : Nat) (h : k < (s.readBytes a n).length) :
    (s.readBytes a n)[k] = s.readByte (a + k) := by
  induction n generalizing a k with
  | zero => simp [State.readBytes] at h
  | succ n ih =>
    cases k with
    | zero => rfl
    | succ k => simp only [State.readBytes, List.getElem_cons_succ, ih]; congr 1; omega

end Sys2Proof.Machine
end

