-- ==== Sys2Proof/Laws/Ops.lean ====
section
/-! SUPPORT. For each shared operation, once, everything it can do: the bounds check, MemRead and MemWrite, push and pop, the key
index, the lowest key, an instruction that checks first, the fetch. Later proofs cite these and do not unfold the operations. -/

namespace Sys2Proof.Machine

/-- The first address above 0xFFF is the greater of the start and 0x1000 (20 R57). -/
theorem firstOutside_eq (a : Nat) : firstOutside a = max a 0x1000 := by
  unfold firstOutside; split <;> omega

/-- It is the least of the addresses from a on that lie outside the array. -/
theorem firstOutside_least (a i : Nat) (h : 0xFFF < a + i) : a ≤ firstOutside a ∧ 0xFFF < firstOutside a ∧ firstOutside a ≤ a + i := by
  rw [firstOutside_eq]; omega

/-- The bounds check passes exactly when nothing is accessed or the last byte is inside (20 R57). -/
theorem rangeFault_none {a n : Nat} (h : n = 0 ∨ a + n ≤ 0x1000) : rangeFault a n = none := by
  unfold rangeFault; rw [if_neg (by omega)]

/-- The bounds check fails with the first address outside (20 R57). -/
theorem rangeFault_some {a n : Nat} (h0 : 0 < n) (h : 0x1000 < a + n) :
    rangeFault a n = some ⟨.memoryOutOfBounds, max a 0x1000⟩ := by
  unfold rangeFault; rw [if_pos (by omega), firstOutside_eq]

/-- The two outcomes of the bounds check. -/
theorem rangeFault_cases (a n : Nat) :
    ((n = 0 ∨ a + n ≤ 0x1000) ∧ rangeFault a n = none) ∨
    (0 < n ∧ 0x1000 < a + n ∧ rangeFault a n = some ⟨.memoryOutOfBounds, max a 0x1000⟩) := by
  by_cases h : n = 0 ∨ a + n ≤ 0x1000
  · exact .inl ⟨h, rangeFault_none h⟩
  · exact .inr ⟨by omega, by omega, rangeFault_some (by omega) (by omega)⟩

theorem State.memRead_ok (s : State) {a n : Nat} (h : n = 0 ∨ a + n ≤ 0x1000) : s.memRead a n = .ok (s.readBytes a n) := by
  simp [State.memRead, rangeFault_none h]

theorem State.memRead_error (s : State) {a n : Nat} (h0 : 0 < n) (h : 0x1000 < a + n) :
    s.memRead a n = .error ⟨.memoryOutOfBounds, max a 0x1000⟩ := by
  simp [State.memRead, rangeFault_some h0 h]

theorem State.memWrite_ok (s : State) {a : Nat} {bs : List Byte} (h : bs.length = 0 ∨ a + bs.length ≤ 0x1000) :
    s.memWrite a bs = .ok (s.writeBytes a bs) := by
  simp [State.memWrite, rangeFault_none h]

theorem State.memWrite_error (s : State) {a : Nat} {bs : List Byte} (h0 : 0 < bs.length) (h : 0x1000 < a + bs.length) :
    s.memWrite a bs = .error ⟨.memoryOutOfBounds, max a 0x1000⟩ := by
  simp [State.memWrite, rangeFault_some h0 h]

/-- Push with room: the entry at sp and one more in use (41 R100). -/
theorem State.push_ok (s : State) (v : Word) (h : s.sp.val < 16) :
    s.push v = .ok { s with stack := s.stack.set s.sp.val v, sp := ⟨s.sp.val + 1, by omega⟩ } := by
  simp [State.push, h]

theorem State.push_full (s : State) (v : Word) (h : s.sp = 16) : s.push v = .error ⟨.stackOverflow, 16⟩ := by
  simp [State.push, h]

/-- Pop with an entry: the top, and one fewer in use; the entry stays (41 R100, 10 R32). -/
theorem State.pop_ok (s : State) (h : 0 < s.sp.val) :
    s.pop = .ok (s.stack[s.sp.val - 1]'(by omega), { s with sp := ⟨s.sp.val - 1, by omega⟩ }) := by
  simp [State.pop, show s.sp.val ≠ 0 by omega]

theorem State.pop_empty (s : State) (h : s.sp = 0) : s.pop = .error ⟨.stackUnderflow, 0⟩ := by
  simp [State.pop, h]

theorem keyIndex_ok {v : Byte} (h : v.toNat ≤ 0xF) : keyIndex v = .ok ⟨v.toNat, by omega⟩ := by
  simp [keyIndex, h]

theorem keyIndex_error {v : Byte} (h : 0xF < v.toNat) : keyIndex v = .error ⟨.keyIndexOutOfRange, v.toNat⟩ := by
  simp [keyIndex, Nat.not_le.2 h]

/-- The lowest pressed key is pressed, and no lower one is (46 R142). -/
theorem State.firstKey_some {s : State} {k : Fin 16} (h : s.firstKey = some k) :
    s.key[k.val] = true ∧ ∀ j : Fin 16, j < k → s.key[j.val] = false := by
  obtain ⟨hk, as, bs, hsplit, hfalse⟩ := List.find?_eq_some_iff_append.1 h
  refine ⟨hk, fun j hj => ?_⟩
  have hsorted : keyNumbers.Pairwise (· < ·) := by decide
  have hall : ∀ k : Fin 16, k ∈ keyNumbers := by decide
  have hjm : j ∈ as ++ k :: bs := hsplit ▸ hall j
  rw [hsplit, List.pairwise_append] at hsorted
  rcases List.mem_append.1 hjm with hj' | hj'
  · simpa using hfalse j hj'
  · rcases List.mem_cons.1 hj' with rfl | hj'
    · omega
    · have := (List.pairwise_cons.1 hsorted.2.1).1 j hj'
      omega

theorem State.firstKey_none {s : State} (h : s.firstKey = none) (k : Fin 16) : s.key[k.val] = false := by
  have hall : ∀ k : Fin 16, k ∈ keyNumbers := by decide
  simpa using List.find?_eq_none.1 h k (hall k)

/-- An instruction whose check passes ends in the state it builds. -/
@[simp] theorem attempt_ok {α : Type} (a : α) (s : State) (k : α → State) : attempt (.ok a) s k = .next (k a) := rfl

/-- An instruction whose check fails takes the fault, with nothing else written (40 R93, 60 R147). -/
@[simp] theorem attempt_error {α : Type} (r : Raise) (s : State) (k : α → State) :
    attempt (.error r) s k = .next (s.faultedWith r.cause (some s.lastWord) r.info) := rfl

/-- An instruction that checks first always answers a next state. -/
theorem attempt_next {α : Type} (c : Except Raise α) (s : State) (k : α → State) : ∃ t, attempt c s k = .next t := by
  cases c <;> exact ⟨_, rfl⟩

/-- The fetch at a pc whose checks pass (40 R86). -/
theorem State.fetch_ok (s : State) (hlo : s.config.enforceProgramRegion = true → 0x200 ≤ s.pc.toNat) (hhi : s.pc.toNat ≤ 0xFFE) :
    s.fetch = .ok (s.readByte s.pc.toNat ++ s.readByte (s.pc.toNat + 1)) := by
  have hr : (s.config.enforceProgramRegion && decide (s.pc.toNat < 0x200)) = false := by
    cases h : s.config.enforceProgramRegion
    · rfl
    · simpa using hlo h
  unfold State.fetch
  rw [hr, rangeFault_none (by omega)]
  rfl

/-- The fetch below the program region, where it is enforced (40 R86). -/
theorem State.fetch_low (s : State) (he : s.config.enforceProgramRegion = true) (h : s.pc.toNat < 0x200) :
    s.fetch = .error ⟨.pcOutOfRange, s.pc.toNat⟩ := by
  simp [State.fetch, he, h]

/-- The fetch of a word that does not lie inside memory (40 R86). -/
theorem State.fetch_high (s : State) (h : 0xFFE < s.pc.toNat) : s.fetch = .error ⟨.memoryOutOfBounds, max s.pc.toNat 0x1000⟩ := by
  have hr : (s.config.enforceProgramRegion && decide (s.pc.toNat < 0x200)) = false := by
    simp [show ¬ s.pc.toNat < 0x200 by omega]
  unfold State.fetch
  rw [hr, rangeFault_some (by omega) (by omega)]
  rfl

/-- Every way a fetch can end (40 R86, R96). -/
theorem State.fetch_cases (s : State) :
    (s.config.enforceProgramRegion = true ∧ s.pc.toNat < 0x200 ∧ s.fetch = .error ⟨.pcOutOfRange, s.pc.toNat⟩) ∨
    (0xFFE < s.pc.toNat ∧ s.fetch = .error ⟨.memoryOutOfBounds, max s.pc.toNat 0x1000⟩) ∨
    ((s.config.enforceProgramRegion = true → 0x200 ≤ s.pc.toNat) ∧ s.pc.toNat ≤ 0xFFE ∧
      s.fetch = .ok (s.readByte s.pc.toNat ++ s.readByte (s.pc.toNat + 1))) := by
  by_cases hlo : s.config.enforceProgramRegion = true ∧ s.pc.toNat < 0x200
  · exact .inl ⟨hlo.1, hlo.2, s.fetch_low hlo.1 hlo.2⟩
  · by_cases hhi : s.pc.toNat ≤ 0xFFE
    · exact .inr (.inr ⟨fun h => by_contra fun hc => hlo ⟨h, by omega⟩, hhi,
        s.fetch_ok (fun h => by_contra fun hc => hlo ⟨h, by omega⟩) hhi⟩)
    · exact .inr (.inl ⟨by omega, s.fetch_high (by omega)⟩)

end Sys2Proof.Machine
end

