-- ==== Sys2Proof/Laws/Operands.lean ====
section
/-! SUPPORT. What the operand forms, the flag computations and the register block do (spec/30_encoding.md R73, 43 R110, 44). -/

namespace Sys2Proof.Machine

@[simp] theorem zextAddr_toNat (nnn : Addr) : (zextAddr nnn).toNat = nnn.toNat := by
  simp [zextAddr, BitVec.toNat_setWidth]; omega

@[simp] theorem zextByte_toNat (b : Byte) : (zextByte b).toNat = b.toNat := by
  simp [zextByte, BitVec.toNat_setWidth]; omega

/-- A glyph address is five times the value, 0 to 1275 (44 R127). -/
@[simp] theorem glyphAddr_toNat (v : Byte) : (glyphAddr v).toNat = v.toNat * 5 := by
  have := v.isLt
  simp only [glyphAddr, BitVec.toNat_mul, zextByte_toNat]
  show v.toNat * 5 % 2 ^ 16 = _
  omega

@[simp] theorem bcdDigits_length (v : Byte) : (bcdDigits v).length = 3 := rfl

/-- Each BCD byte is one decimal digit, and the three make the value (44 R128). -/
theorem bcdDigits_value (v : Byte) :
    ∃ h t o : Byte, bcdDigits v = [h, t, o] ∧ h.toNat ≤ 2 ∧ t.toNat ≤ 9 ∧ o.toNat ≤ 9 ∧
      h.toNat * 100 + t.toNat * 10 + o.toNat = v.toNat := by
  have := v.isLt
  refine ⟨_, _, _, rfl, ?_⟩
  simp only [BitVec.toNat_ofNat]
  omega

@[simp] theorem State.regBlock_length (s : State) (x : Reg) : (s.regBlock x).length = x.val + 1 := by
  simp [State.regBlock]

/-- Byte k of the block is Vk (44 R129). -/
theorem State.regBlock_getElem (s : State) (x : Reg) (k : Nat) (h : k < (s.regBlock x).length) :
    (s.regBlock x)[k] = s.reg ⟨k, by have := s.regBlock_length x; omega⟩ := by
  simp [State.regBlock, State.reg]

/-- Loading a block writes the registers from i on and nothing else (44 R130). -/
theorem State.setRegsFrom_reg (bs : List Byte) (s : State) (i : Nat) (h : i + bs.length ≤ 16) (r : Reg) :
    (s.setRegsFrom i bs).reg r = if i ≤ r.val then bs.getD (r.val - i) (s.reg r) else s.reg r := by
  induction bs generalizing s i with
  | nil => simp [State.setRegsFrom]
  | cons b bs ih =>
    simp only [List.length_cons] at h
    have hi : i < 16 := by omega
    rw [State.setRegsFrom, dif_pos hi, ih _ _ (by omega), State.reg_setReg]
    rcases Nat.lt_trichotomy r.val i with hr | hr | hr
    · have hne : r ≠ ⟨i, hi⟩ := by rw [Ne, Fin.ext_iff]; simp; omega
      simp [show ¬ i + 1 ≤ r.val by omega, show ¬ i ≤ r.val by omega, hne]
    · have : r = ⟨i, hi⟩ := Fin.ext hr
      subst this; simp
    · obtain ⟨d, hd⟩ : ∃ d, r.val = i + 1 + d := ⟨r.val - (i + 1), by omega⟩
      have hne : r ≠ ⟨i, hi⟩ := by rw [Ne, Fin.ext_iff]; simp; omega
      simp [hd, show i + 1 + d - i = d + 1 by omega, show i ≤ i + 1 + d by omega, hne]

/-- Loading a block changes V only. -/
theorem State.setRegsFrom_frame (bs : List Byte) (s : State) (i : Nat) :
    ∃ v, s.setRegsFrom i bs = { s with V := v } := by
  induction bs generalizing s i with
  | nil => exact ⟨s.V, rfl⟩
  | cons b bs ih =>
    rw [State.setRegsFrom]
    split
    · obtain ⟨v, hv⟩ := ih (s.setReg ⟨i, by assumption⟩ b) (i + 1)
      exact ⟨v, hv⟩
    · exact ⟨s.V, rfl⟩

/-- A flag byte is 1 or 0 (43 R110). -/
theorem flagByte_cases (f : Bool) : (f = true ∧ flagByte f = 0x01) ∨ (f = false ∧ flagByte f = 0x00) := by
  cases f
  · exact .inr ⟨rfl, rfl⟩
  · exact .inl ⟨rfl, rfl⟩

/-- Result and flag: VF is the flag, whatever x is, and Vx is the result unless x is F (43 R110). -/
theorem State.reg_setRegFlag (s : State) (x r : Reg) (b : Byte) (f : Bool) :
    (s.setRegFlag x b f).reg r = if r = VF then flagByte f else if r = x then b else s.reg r := by
  simp [State.setRegFlag, State.reg_setReg]

/-- A flag instruction changes V only. -/
theorem State.setRegFlag_frame (s : State) (x : Reg) (b : Byte) (f : Bool) : ∃ v, s.setRegFlag x b f = { s with V := v } :=
  ⟨_, rfl⟩

@[simp] theorem add8_toNat (a b : Byte) : (add8 a b).toNat = (a.toNat + b.toNat) % 256 := by simp [add8]

@[simp] theorem sub8_toNat (a b : Byte) : (sub8 a b).toNat = (a.toNat + 256 - b.toNat) % 256 := by simp [sub8]

@[simp] theorem half8_toNat (a : Byte) : (half8 a).toNat = a.toNat / 2 := by
  have := a.isLt
  simp [half8]; omega

@[simp] theorem double8_toNat (a : Byte) : (double8 a).toNat = a.toNat * 2 % 256 := by simp [double8]

/-- A tick takes one off, and leaves 0 at 0 (60 R156). -/
@[simp] theorem countDown_toNat (b : Byte) : (countDown b).toNat = b.toNat - 1 := by
  unfold countDown
  split
  · next h => subst h; rfl
  · next h =>
    have hb : b.toNat ≠ 0 := fun h0 => h (BitVec.eq_of_toNat_eq h0)
    have hlt := b.isLt
    simp only [BitVec.toNat_sub]
    show (2 ^ 8 - 1 + b.toNat) % 2 ^ 8 = _
    omega

end Sys2Proof.Machine
end

