-- ==== Sys2Proof/Laws/DrawUnit.lean ====
section
/-! SUPPORT. What the sprite XOR unit and the collision detector do to a pixel (spec/45_display.md R134, R135, R138). -/

namespace Sys2Proof.Machine

/-- Toggling one pixel changes that pixel and no other. -/
theorem Display.pixel_toggle (d : Display) (ax px : Fin 64) (ay py : Fin 32) :
    (Display.toggle d ax ay).pixel px py = if px = ax ∧ py = ay then !d.pixel px py else d.pixel px py := by
  unfold Display.toggle Display.pixel
  by_cases hy : py = ay
  · subst hy
    by_cases hx : px = ax
    · subst hx; simp
    · have hxv : ax.val ≠ px.val := fun h => hx (Fin.ext h.symm)
      simp [hx, hxv]
  · have hyv : ay.val ≠ py.val := fun h => hy (Fin.ext h.symm)
    simp [hy, hyv]

@[simp] theorem Display.pixel_blank (px : Fin 64) (py : Fin 32) : Display.blank.pixel px py = false := by
  simp [Display.blank, Display.pixel]

/-- Two displays with the same pixels are the same. -/
theorem Display.ext_pixel {d e : Display} (h : ∀ px py, d.pixel px py = e.pixel px py) : d = e := by
  refine Vector.ext fun y hy => Vector.ext fun x hx => ?_
  exact h ⟨x, hx⟩ ⟨y, hy⟩

/-- Column c of a row byte drawn at (x0, y) lies on the pixel. -/
abbrev ColumnHits (row : Byte) (x0 y : Nat) (px : Fin 64) (py : Fin 32) (c : Nat) : Prop :=
  spriteBit row c = true ∧ px = wrapX (x0 + c) ∧ py = wrapY y

/-- Drawing some columns toggles exactly the pixels under their 1 bits, since no two columns share a pixel (45 R138). -/
theorem xorColumns_pixel (row : Byte) (x0 y : Nat) (px : Fin 64) (py : Fin 32) (cs : List Nat) (hn : cs.Nodup)
    (hlt : ∀ c ∈ cs, c < 64) (d : Display) :
    ((∃ c ∈ cs, ColumnHits row x0 y px py c) → (xorColumns row x0 y cs d).pixel px py = !d.pixel px py) ∧
    ((¬∃ c ∈ cs, ColumnHits row x0 y px py c) → (xorColumns row x0 y cs d).pixel px py = d.pixel px py) := by
  induction cs generalizing d with
  | nil => simp [xorColumns]
  | cons c cs ih =>
    obtain ⟨hc, hn⟩ := List.nodup_cons.1 hn
    have ih := ih hn (fun e he => hlt e (by simp [he])) (if spriteBit row c then Display.toggle d (wrapX (x0 + c)) (wrapY y) else d)
    have hhead : (if spriteBit row c then Display.toggle d (wrapX (x0 + c)) (wrapY y) else d).pixel px py =
        if spriteBit row c = true ∧ px = wrapX (x0 + c) ∧ py = wrapY y then !d.pixel px py else d.pixel px py := by
      by_cases hb : spriteBit row c = true
      · simp [hb, Display.pixel_toggle]
      · simp [hb]
    change _ = if ColumnHits row x0 y px py c then _ else _ at hhead
    rw [xorColumns]
    by_cases hit : ColumnHits row x0 y px py c
    · have hrest : ¬∃ e ∈ cs, ColumnHits row x0 y px py e := by
        rintro ⟨e, he, -, hx, -⟩
        have h1 := hit.2.1
        rw [hx] at h1
        have h2 : (x0 + e) % 64 = (x0 + c) % 64 := congrArg Fin.val h1
        have h3 := hlt e (by simp [he])
        have h4 := hlt c (by simp)
        have : e = c := by omega
        exact hc (this ▸ he)
      refine ⟨fun _ => ?_, fun hno => absurd ⟨c, by simp, hit⟩ hno⟩
      rw [ih.2 hrest, hhead, if_pos hit]
    · refine ⟨fun ⟨e, he, hh⟩ => ?_, fun hno => ?_⟩
      · rcases List.mem_cons.1 he with rfl | he
        · exact absurd hh hit
        · rw [ih.1 ⟨e, he, hh⟩, hhead, if_neg hit]
      · rw [ih.2 fun ⟨e, he, hh⟩ => hno ⟨e, by simp [he], hh⟩, hhead, if_neg hit]

/-- Row r, column c of a sprite drawn at (x0, y0) lies on the pixel. -/
def SpriteHits (rows : List Byte) (x0 y0 : Nat) (px : Fin 64) (py : Fin 32) : Prop :=
  ∃ r, ∃ h : r < rows.length, ∃ c < 8, ColumnHits rows[r] x0 (y0 + r) px py c

theorem mem_columns (c : Nat) : c ∈ columns ↔ c < 8 := by
  simp only [columns, List.mem_cons, List.not_mem_nil, or_false]; omega

theorem spriteHits_cons (row : Byte) (rows : List Byte) (x0 y0 : Nat) (px : Fin 64) (py : Fin 32) :
    SpriteHits (row :: rows) x0 y0 px py ↔
      (∃ c ∈ columns, ColumnHits row x0 y0 px py c) ∨ SpriteHits rows x0 (y0 + 1) px py := by
  constructor
  · rintro ⟨r, h, c, hc, hh⟩
    cases r with
    | zero => exact .inl ⟨c, (mem_columns c).2 hc, hh⟩
    | succ r =>
      refine .inr ⟨r, by simpa using h, c, hc, ?_⟩
      rwa [show y0 + 1 + r = y0 + (r + 1) by omega]
  · rintro (⟨c, hc, hh⟩ | ⟨r, h, c, hc, hh⟩)
    · exact ⟨0, by simp, c, (mem_columns c).1 hc, hh⟩
    · refine ⟨r + 1, by simpa using h, c, hc, ?_⟩
      rwa [show y0 + (r + 1) = y0 + 1 + r by omega]

/-- Drawing a sprite of at most 32 rows toggles exactly the pixels under its 1 bits (45 R134, R138). -/
theorem xorDraw_pixel (rows : List Byte) (x0 y0 : Nat) (hlen : rows.length ≤ 32) (d : Display) (px : Fin 64) (py : Fin 32) :
    (SpriteHits rows x0 y0 px py → (xorDraw rows x0 y0 d).pixel px py = !d.pixel px py) ∧
    (¬SpriteHits rows x0 y0 px py → (xorDraw rows x0 y0 d).pixel px py = d.pixel px py) := by
  induction rows generalizing y0 d with
  | nil => exact ⟨fun ⟨_, h, _⟩ => absurd h (by simp), fun _ => rfl⟩
  | cons row rows ih =>
    simp only [List.length_cons] at hlen
    have hcol := xorColumns_pixel row x0 y0 px py columns (by decide) (fun c hc => by have := (mem_columns c).1 hc; omega) d
    have ih := ih (y0 + 1) (by omega) (xorColumns row x0 y0 columns d)
    rw [xorDraw, spriteHits_cons]
    by_cases hhead : ∃ c ∈ columns, ColumnHits row x0 y0 px py c
    · have hrest : ¬SpriteHits rows x0 (y0 + 1) px py := by
        rintro ⟨r, h, e, -, -, -, hy⟩
        obtain ⟨c, -, -, -, hy'⟩ := hhead
        rw [hy] at hy'
        have h1 : (y0 + 1 + r) % 32 = y0 % 32 := congrArg Fin.val hy'
        omega
      exact ⟨fun _ => by rw [ih.2 hrest, hcol.1 hhead], fun h => absurd (.inl hhead) h⟩
    · refine ⟨fun h => ?_, fun h => ?_⟩
      · rw [ih.1 (h.resolve_left hhead), hcol.2 hhead]
      · rw [ih.2 fun hr => h (.inr hr), hcol.2 hhead]

/-- The detector answers exactly whether some 1 bit lies on a lit pixel (45 R135). -/
theorem collision_iff (rows : List Byte) (x0 y0 : Nat) (d : Display) :
    collision rows x0 y0 d = true ↔ ∃ px py, SpriteHits rows x0 y0 px py ∧ d.pixel px py = true := by
  induction rows generalizing y0 with
  | nil => exact ⟨fun h => absurd h (by simp [collision]), fun ⟨_, _, ⟨_, h, _⟩, _⟩ => absurd h (by simp)⟩
  | cons row rows ih =>
    simp only [collision, Bool.or_eq_true, List.any_eq_true, Bool.and_eq_true, ih, spriteHits_cons]
    constructor
    · rintro (⟨c, hc, hb, hp⟩ | ⟨px, py, hh, hp⟩)
      · exact ⟨_, _, .inl ⟨c, hc, hb, rfl, rfl⟩, hp⟩
      · exact ⟨px, py, .inr hh, hp⟩
    · rintro ⟨px, py, ⟨c, hc, hb, rfl, rfl⟩ | hh, hp⟩
      · exact .inl ⟨c, hc, hb, hp⟩
      · exact .inr ⟨px, py, hh, hp⟩

end Sys2Proof.Machine
end

