-- ==== Sys2Proof/Laws/Engine.lean ====
section
/-! SUPPORT. Every way the front of a cycle and the cycle can end (spec/40_engine.md R84 to R89, R95, R96), once; later proofs cite
these and do not unfold fetch, front or step. -/

namespace Sys2Proof.Machine

/-- Executing an unknown word (40 R95). -/
theorem State.unknownWord_cases (s : State) :
    (s.config.unknownPolicy = .fatal ∧ s.unknownWord = s.faultedWith .unknownInstruction (some s.lastWord) 0) ∨
    (s.config.unknownPolicy = .stall ∧ s.unknownWord = s) := by
  unfold State.unknownWord
  cases s.config.unknownPolicy
  · exact .inl ⟨rfl, rfl⟩
  · exact .inr ⟨rfl, rfl⟩

/-- Every way the front of a cycle can end. -/
theorem State.front_cases (s : State) :
    (s.status ≠ .running ∧ s.front = .stop s) ∨
    (s.status = .running ∧ s.config.enforceProgramRegion = true ∧ s.pc.toNat < 0x200 ∧
      s.front = .stop (s.tick.faultedWith .pcOutOfRange none s.pc.toNat)) ∨
    (s.status = .running ∧ 0xFFE < s.pc.toNat ∧
      s.front = .stop (s.tick.faultedWith .memoryOutOfBounds none (max s.pc.toNat 0x1000))) ∨
    (s.status = .running ∧ s.FetchOk ∧
      ((∃ i, decode s.wordAtPc = .ok i ∧ s.front = .run i (s.tick.setLastWord s.wordAtPc)) ∨
       ∃ r, decode s.wordAtPc = .error r ∧ s.front = .stop (s.tick.setLastWord s.wordAtPc).unknownWord)) := by
  cases h : s.status with
  | running =>
    rcases s.tick.fetch_cases with ⟨he, hp, hr⟩ | ⟨hp, hr⟩ | ⟨hlo, hhi, hr⟩
    · exact .inr (.inl ⟨rfl, he, hp, by simp only [State.front, h, hr]; rfl⟩)
    · exact .inr (.inr (.inl ⟨rfl, hp, by simp only [State.front, h, hr]; rfl⟩))
    · have hw : s.tick.fetch = .ok s.wordAtPc := hr
      refine .inr (.inr (.inr ⟨rfl, ⟨hlo, hhi⟩, ?_⟩))
      cases hd : decode s.wordAtPc with
      | ok i => exact .inl ⟨i, rfl, by simp only [State.front, h, hw, hd]⟩
      | error r => exact .inr ⟨r, rfl, by simp only [State.front, h, hw, hd]⟩
  | halted => exact .inl ⟨by simp, by simp only [State.front, h]⟩
  | faulted r => exact .inl ⟨by simp, by simp only [State.front, h]⟩

/-- Every way a cycle can end (40 R84). -/
theorem step_cases {s t : State} (h : step s = .next t) :
    (s.status ≠ .running ∧ t = s) ∨
    (s.status = .running ∧ s.config.enforceProgramRegion = true ∧ s.pc.toNat < 0x200 ∧
      t = s.tick.faultedWith .pcOutOfRange none s.pc.toNat) ∨
    (s.status = .running ∧ 0xFFE < s.pc.toNat ∧ t = s.tick.faultedWith .memoryOutOfBounds none (max s.pc.toNat 0x1000)) ∨
    (s.status = .running ∧ s.FetchOk ∧
      ((∃ i, decode s.wordAtPc = .ok i ∧ exec i (s.tick.setLastWord s.wordAtPc) = .next t) ∨
       ∃ r, decode s.wordAtPc = .error r ∧ t = (s.tick.setLastWord s.wordAtPc).unknownWord)) := by
  unfold step at h
  rcases s.front_cases with ⟨h0, hf⟩ | ⟨h0, h1, h2, hf⟩ | ⟨h0, h1, hf⟩ | ⟨h0, h1, ⟨i, hd, hf⟩ | ⟨r, hd, hf⟩⟩ <;> rw [hf] at h
  · cases h; exact .inl ⟨h0, rfl⟩
  · cases h; exact .inr (.inl ⟨h0, h1, h2, rfl⟩)
  · cases h; exact .inr (.inr (.inl ⟨h0, h1, rfl⟩))
  · exact .inr (.inr (.inr ⟨h0, h1, .inl ⟨i, hd, h⟩⟩))
  · cases h; exact .inr (.inr (.inr ⟨h0, h1, .inr ⟨r, hd, rfl⟩⟩))

end Sys2Proof.Machine
end

