-- ==== Sys2Proof/Laws/Exec.lean ====
section
/-! SUPPORT. What any instruction can do to the state as a whole, once: the faults it takes and on what (spec/60_host_faults_timers.md
R146), and what the others leave of key, config, last_word, status, the timers and memory. -/

namespace Sys2Proof.Machine

/-- The instruction takes this fault in this state, with this number (60 R146). -/
def FaultsOn (i : Instr) (s : State) (c : Cause) (info : Nat) : Prop :=
  (i = .ret ∧ s.sp = 0 ∧ c = .stackUnderflow ∧ info = 0) ∨
  ((∃ nnn, i = .call nnn) ∧ s.sp = 16 ∧ c = .stackOverflow ∧ info = 16) ∨
  (0 < i.accessLen ∧ 0x1000 < s.indexAddr + i.accessLen ∧ c = .memoryOutOfBounds ∧ info = max s.indexAddr 0x1000) ∨
  (∃ x, (i = .skp x ∨ i = .sknp x) ∧ 0xF < (s.reg x).toNat ∧ c = .keyIndexOutOfRange ∧ info = (s.reg x).toNat)

/-- What an instruction that takes no fault leaves of the state outside V, I, pc, the stack and the display. -/
structure Effect (i : Instr) (s t : State) : Prop where
  key : t.key = s.key
  config : t.config = s.config
  lastWord : t.lastWord = s.lastWord
  status : t.status = s.status ∨ i = .halt ∧ t = s.halt
  delay : t.DT = s.DT ∨ ∃ x, i = .ldDTVx x ∧ t.DT = s.reg x
  sound : t.ST = s.ST ∨ ∃ x, i = .ldSTVx x ∧ t.ST = s.reg x
  mem : t.mem = s.mem ∨ ((∃ x, i = .ldB x ∨ i = .storeRegs x) ∧
    ∃ bs, s.indexAddr + bs.length ≤ 0x1000 ∧ t.mem = s.mem.writeList s.base s.indexAddr bs)

theorem access_cases (a n : Nat) : (n = 0 ∨ a + n ≤ 0x1000) ∨ (0 < n ∧ 0x1000 < a + n) := by omega

/-- The effect of an instruction that keeps all of this but V, I, pc, the stack and the display. -/
theorem effect_of_same (i : Instr) (s t : State) (h : t = { s with
    V := t.V, I := t.I, pc := t.pc, stack := t.stack, sp := t.sp, disp := t.disp, needsRedraw := t.needsRedraw, draws := t.draws }) :
    Effect i s t := by
  rw [h]; exact ⟨rfl, rfl, rfl, .inl rfl, .inl rfl, .inl rfl, .inl rfl⟩

/-- Every way an instruction can end: the fault it takes, recorded and nothing else, or its effect. -/
theorem exec_cases {i : Instr} {s t : State} (h : exec i s = .next t) :
    (∃ c info, FaultsOn i s c info ∧ t = s.faultedWith c (some s.lastWord) info) ∨ Effect i s t := by
  cases i
  case ret =>
    by_cases hs : s.sp = 0
    · rw [exec, execRet, s.pop_empty hs] at h; cases h
      exact .inl ⟨_, _, .inl ⟨rfl, hs, rfl, rfl⟩, rfl⟩
    · have hp : 0 < s.sp.val := Nat.pos_of_ne_zero fun h0 => hs (Fin.ext h0)
      rw [exec, execRet, s.pop_ok hp] at h; cases h
      exact .inr (effect_of_same _ _ _ rfl)
  case call nnn =>
    by_cases hs : s.sp = 16
    · rw [exec, execCall, s.push_full _ hs] at h; cases h
      exact .inl ⟨_, _, .inr (.inl ⟨⟨_, rfl⟩, hs, rfl, rfl⟩), rfl⟩
    · have hp : s.sp.val < 16 := by
        rcases Nat.lt_or_ge s.sp.val 16 with h | h
        · exact h
        · exact absurd (Fin.ext (by have := s.sp.isLt; show s.sp.val = 16; omega)) hs
      rw [exec, execCall, s.push_ok _ hp] at h; cases h
      exact .inr (effect_of_same _ _ _ rfl)
  case skp x =>
    by_cases hk : 0xF < (s.reg x).toNat
    · rw [exec, execSkp, keyIndex_error hk] at h; cases h
      exact .inl ⟨_, _, .inr (.inr (.inr ⟨x, .inl rfl, hk, rfl, rfl⟩)), rfl⟩
    · rw [exec, execSkp, keyIndex_ok (by omega)] at h; cases h
      dsimp only; rw [State.skipIf_eq]
      exact .inr (effect_of_same _ _ _ rfl)
  case sknp x =>
    by_cases hk : 0xF < (s.reg x).toNat
    · rw [exec, execSknp, keyIndex_error hk] at h; cases h
      exact .inl ⟨_, _, .inr (.inr (.inr ⟨x, .inr rfl, hk, rfl, rfl⟩)), rfl⟩
    · rw [exec, execSknp, keyIndex_ok (by omega)] at h; cases h
      dsimp only; rw [State.skipIf_eq]
      exact .inr (effect_of_same _ _ _ rfl)
  case ldB x =>
    rcases access_cases s.indexAddr 3 with hm | ⟨h0, hm⟩
    · rw [exec, execLdB, s.memWrite_ok (by simpa using hm)] at h; cases h
      exact .inr ⟨rfl, rfl, rfl, .inl rfl, .inl rfl, .inl rfl,
        .inr ⟨⟨x, .inl rfl⟩, bcdDigits (s.reg x), by simp; omega, rfl⟩⟩
    · rw [exec, execLdB, s.memWrite_error (by simp) (by simpa using hm)] at h; cases h
      exact .inl ⟨_, _, .inr (.inr (.inl ⟨h0, hm, rfl, rfl⟩)), rfl⟩
  case storeRegs x =>
    rcases access_cases s.indexAddr (x.val + 1) with hm | ⟨h0, hm⟩
    · rw [exec, execStoreRegs, s.memWrite_ok (by simpa using hm)] at h; cases h
      exact .inr ⟨rfl, rfl, rfl, .inl rfl, .inl rfl, .inl rfl, .inr ⟨⟨x, .inr rfl⟩, s.regBlock x, by simp; omega, rfl⟩⟩
    · rw [exec, execStoreRegs, s.memWrite_error (by simp) (by simpa using hm)] at h; cases h
      exact .inl ⟨_, _, .inr (.inr (.inl ⟨h0, hm, rfl, rfl⟩)), rfl⟩
  case loadRegs x =>
    rcases access_cases s.indexAddr (x.val + 1) with hm | ⟨h0, hm⟩
    · rw [exec, execLoadRegs, s.memRead_ok hm] at h; cases h
      obtain ⟨v, hv⟩ := s.setRegsFrom_frame (s.readBytes s.indexAddr (x.val + 1)) 0
      dsimp only; rw [hv]
      exact .inr (effect_of_same _ _ _ rfl)
    · rw [exec, execLoadRegs, s.memRead_error h0 hm] at h; cases h
      exact .inl ⟨_, _, .inr (.inr (.inl ⟨h0, hm, rfl, rfl⟩)), rfl⟩
  case drw x y n =>
    rcases access_cases s.indexAddr n.val with hm | ⟨h0, hm⟩
    · rw [exec, execDrw, s.memRead_ok hm] at h; cases h
      exact .inr (effect_of_same _ _ _ rfl)
    · rw [exec, execDrw, s.memRead_error h0 hm] at h; cases h
      exact .inl ⟨_, _, .inr (.inr (.inl ⟨h0, hm, rfl, rfl⟩)), rfl⟩
  case ldVxK x =>
    rw [exec, execLdVxK] at h
    cases hk : s.firstKey <;> rw [hk] at h <;> cases h <;> exact .inr (effect_of_same _ _ _ rfl)
  case halt => cases h; exact .inr ⟨rfl, rfl, rfl, .inr ⟨rfl, rfl⟩, .inl rfl, .inl rfl, .inl rfl⟩
  case ldDTVx x => cases h; exact .inr ⟨rfl, rfl, rfl, .inl rfl, .inr ⟨x, rfl, rfl⟩, .inl rfl, .inl rfl⟩
  case ldSTVx x => cases h; exact .inr ⟨rfl, rfl, rfl, .inl rfl, .inl rfl, .inr ⟨x, rfl, rfl⟩, .inl rfl⟩
  case seImm | sneImm | seReg | sneReg => cases h; rw [State.skipIf_eq]; exact .inr (effect_of_same _ _ _ rfl)
  all_goals cases h; exact .inr (effect_of_same _ _ _ rfl)

end Sys2Proof.Machine
end

