-- ==== Sys2Proof/Laws/PerInstr.lean ====
section
/-! SUPPORT. Per instruction: its word lies in its own row of the opcode map (spec/30_encoding.md R74, R76): the fixed bits of the row
are as the row says, whatever the operands. -/

namespace Sys2Proof

/-- AND works on the two parts of a concatenation. -/
theorem append_and_append {m n : Nat} (a c : BitVec m) (b d : BitVec n) : (a ++ b) &&& (c ++ d) = (a &&& c) ++ (b &&& d) := by
  ext i hi
  simp only [BitVec.getElem_and, BitVec.getElem_append]
  split <;> simp

theorem and_ones4 (a : BitVec 4) : a &&& 0xF#4 = a := BitVec.and_allOnes

theorem and_ones8 (a : Byte) : a &&& 0xFF#8 = a := BitVec.and_allOnes

theorem wordNNN_masked (op : BitVec 4) (nnn : Addr) : wordNNN op nnn &&& 0xF000 = op ++ 0x000#12 := by
  rw [show (0xF000 : Word) = 0xF#4 ++ 0x000#12 by decide, wordNNN, append_and_append]
  simp [and_ones4]

theorem wordXKK_masked (op : BitVec 4) (x : Reg) (kk : Byte) : wordXKK op x kk &&& 0xF000 = (op ++ 0x0#4) ++ 0x00#8 := by
  rw [show (0xF000 : Word) = (0xF#4 ++ 0x0#4) ++ 0x00#8 by decide, wordXKK, append_and_append, append_and_append]
  simp [and_ones4]

theorem wordXSS_masked (op : BitVec 4) (x : Reg) (kk : Byte) : wordXKK op x kk &&& 0xF0FF = (op ++ 0x0#4) ++ kk := by
  rw [show (0xF0FF : Word) = (0xF#4 ++ 0x0#4) ++ 0xFF#8 by decide, wordXKK, append_and_append, append_and_append]
  simp [and_ones4, and_ones8]

theorem wordXYS_masked (op : BitVec 4) (x y : Reg) (n : Rows) :
    wordXYN op x y n &&& 0xF00F = (op ++ 0x0#4) ++ (0x0#4 ++ (BitVec.ofFin n : BitVec 4)) := by
  rw [show (0xF00F : Word) = (0xF#4 ++ 0x0#4) ++ (0x0#4 ++ 0xF#4) by decide, wordXYN, append_and_append, append_and_append,
    append_and_append]
  simp [and_ones4]

theorem wordXYN_masked (op : BitVec 4) (x y : Reg) (n : Rows) :
    wordXYN op x y n &&& 0xF000 = (op ++ 0x0#4) ++ (0x0#4 ++ 0x0#4) := by
  rw [show (0xF000 : Word) = (0xF#4 ++ 0x0#4) ++ (0x0#4 ++ 0x0#4) by decide, wordXYN, append_and_append, append_and_append,
    append_and_append]
  simp [and_ones4]

/-- The word of the instruction has the fixed bits of the instruction's row. -/
def Laws.EncodesInRow.Statement (i : Instr) : Prop := encode i &&& i.row.mask = i.row.bits

theorem Laws.EncodesInRow.halt : Laws.EncodesInRow.Statement .halt := by unfold Laws.EncodesInRow.Statement; decide
theorem Laws.EncodesInRow.cls : Laws.EncodesInRow.Statement .cls := by unfold Laws.EncodesInRow.Statement; decide
theorem Laws.EncodesInRow.ret : Laws.EncodesInRow.Statement .ret := by unfold Laws.EncodesInRow.Statement; decide
theorem Laws.EncodesInRow.jp (nnn : Addr) : Laws.EncodesInRow.Statement (.jp nnn) := (wordNNN_masked _ nnn).trans rfl
theorem Laws.EncodesInRow.call (nnn : Addr) : Laws.EncodesInRow.Statement (.call nnn) := (wordNNN_masked _ nnn).trans rfl
theorem Laws.EncodesInRow.seImm (x : Reg) (kk : Byte) : Laws.EncodesInRow.Statement (.seImm x kk) := (wordXKK_masked _ x kk).trans rfl
theorem Laws.EncodesInRow.sneImm (x : Reg) (kk : Byte) : Laws.EncodesInRow.Statement (.sneImm x kk) := (wordXKK_masked _ x kk).trans rfl
theorem Laws.EncodesInRow.seReg (x y : Reg) : Laws.EncodesInRow.Statement (.seReg x y) := (wordXYS_masked _ x y _).trans rfl
theorem Laws.EncodesInRow.ldImm (x : Reg) (kk : Byte) : Laws.EncodesInRow.Statement (.ldImm x kk) := (wordXKK_masked _ x kk).trans rfl
theorem Laws.EncodesInRow.addImm (x : Reg) (kk : Byte) : Laws.EncodesInRow.Statement (.addImm x kk) := (wordXKK_masked _ x kk).trans rfl
theorem Laws.EncodesInRow.ldReg (x y : Reg) : Laws.EncodesInRow.Statement (.ldReg x y) := (wordXYS_masked _ x y _).trans rfl
theorem Laws.EncodesInRow.orReg (x y : Reg) : Laws.EncodesInRow.Statement (.orReg x y) := (wordXYS_masked _ x y _).trans rfl
theorem Laws.EncodesInRow.andReg (x y : Reg) : Laws.EncodesInRow.Statement (.andReg x y) := (wordXYS_masked _ x y _).trans rfl
theorem Laws.EncodesInRow.xorReg (x y : Reg) : Laws.EncodesInRow.Statement (.xorReg x y) := (wordXYS_masked _ x y _).trans rfl
theorem Laws.EncodesInRow.addReg (x y : Reg) : Laws.EncodesInRow.Statement (.addReg x y) := (wordXYS_masked _ x y _).trans rfl
theorem Laws.EncodesInRow.sub (x y : Reg) : Laws.EncodesInRow.Statement (.sub x y) := (wordXYS_masked _ x y _).trans rfl
theorem Laws.EncodesInRow.shr (x y : Reg) : Laws.EncodesInRow.Statement (.shr x y) := (wordXYS_masked _ x y _).trans rfl
theorem Laws.EncodesInRow.subn (x y : Reg) : Laws.EncodesInRow.Statement (.subn x y) := (wordXYS_masked _ x y _).trans rfl
theorem Laws.EncodesInRow.shl (x y : Reg) : Laws.EncodesInRow.Statement (.shl x y) := (wordXYS_masked _ x y _).trans rfl
theorem Laws.EncodesInRow.sneReg (x y : Reg) : Laws.EncodesInRow.Statement (.sneReg x y) := (wordXYS_masked _ x y _).trans rfl
theorem Laws.EncodesInRow.ldI (nnn : Addr) : Laws.EncodesInRow.Statement (.ldI nnn) := (wordNNN_masked _ nnn).trans rfl
theorem Laws.EncodesInRow.jpV0 (nnn : Addr) : Laws.EncodesInRow.Statement (.jpV0 nnn) := (wordNNN_masked _ nnn).trans rfl
theorem Laws.EncodesInRow.rnd (x : Reg) (kk : Byte) : Laws.EncodesInRow.Statement (.rnd x kk) := (wordXKK_masked _ x kk).trans rfl
theorem Laws.EncodesInRow.drw (x y : Reg) (n : Rows) : Laws.EncodesInRow.Statement (.drw x y n) := (wordXYN_masked _ x y n).trans rfl
theorem Laws.EncodesInRow.skp (x : Reg) : Laws.EncodesInRow.Statement (.skp x) := (wordXSS_masked _ x _).trans rfl
theorem Laws.EncodesInRow.sknp (x : Reg) : Laws.EncodesInRow.Statement (.sknp x) := (wordXSS_masked _ x _).trans rfl
theorem Laws.EncodesInRow.ldVxDT (x : Reg) : Laws.EncodesInRow.Statement (.ldVxDT x) := (wordXSS_masked _ x _).trans rfl
theorem Laws.EncodesInRow.ldVxK (x : Reg) : Laws.EncodesInRow.Statement (.ldVxK x) := (wordXSS_masked _ x _).trans rfl
theorem Laws.EncodesInRow.ldDTVx (x : Reg) : Laws.EncodesInRow.Statement (.ldDTVx x) := (wordXSS_masked _ x _).trans rfl
theorem Laws.EncodesInRow.ldSTVx (x : Reg) : Laws.EncodesInRow.Statement (.ldSTVx x) := (wordXSS_masked _ x _).trans rfl
theorem Laws.EncodesInRow.addI (x : Reg) : Laws.EncodesInRow.Statement (.addI x) := (wordXSS_masked _ x _).trans rfl
theorem Laws.EncodesInRow.ldF (x : Reg) : Laws.EncodesInRow.Statement (.ldF x) := (wordXSS_masked _ x _).trans rfl
theorem Laws.EncodesInRow.ldB (x : Reg) : Laws.EncodesInRow.Statement (.ldB x) := (wordXSS_masked _ x _).trans rfl
theorem Laws.EncodesInRow.storeRegs (x : Reg) : Laws.EncodesInRow.Statement (.storeRegs x) := (wordXSS_masked _ x _).trans rfl
theorem Laws.EncodesInRow.loadRegs (x : Reg) : Laws.EncodesInRow.Statement (.loadRegs x) := (wordXSS_masked _ x _).trans rfl

end Sys2Proof
end

