-- ==== Sys2Proof/Tests/Slice0.lean ====
section
/-! SUPPORT. The model's own tests: what WellFormed and the decoder refuse, one word per instruction written out bit by bit from
spec/30_encoding.md R76, single cycles taken from the vectors of spec/95_test_vectors.md (V and L numbers), and, for each
obligation with hypotheses, a state and operands that meet them. -/

namespace Sys2Proof.Tests

open Sys2Proof.Machine

/-- The state an outcome gives, if it gives one. -/
def nextOf (r : Result) : Option State :=
  match r with
  | .next t => some t
  | .fault _ => none
  | .refused _ => none

/-- Registers set in a state. -/
def withRegs (rs : List (Reg × Byte)) (s : State) : State := rs.foldl (fun t r => t.setReg r.1 r.2) s

/-- Keys pressed in a state. -/
def withKeys (ks : List (Fin 16)) (s : State) : State := { s with key := ks.foldl (fun v k => v.set k.val true) s.key }

/-- Pixels lit in a state. -/
def withLit (ps : List (Fin 64 × Fin 32)) (s : State) : State :=
  { s with disp := ps.foldl (fun d p => Display.toggle d p.1 p.2) s.disp }

/-- The reset state with I = 0x300 and these bytes at 0x300. -/
def withData (bs : List Byte) : State := ({ State.reset with I := 0x300 }).writeBytes 0x300 bs

/-- What one cycle on the word placed at pc leaves. -/
def cycled (w : Nat) (s : State) : Option State := nextOf (step (s.withFetchWord 16 w))

/-- The status of a fault. -/
def faultOf (t : State) : Option FaultRecord :=
  match t.status with
  | .faulted r => some r
  | .running => none
  | .halted => none

/-! ### Ill-formed words -/

/-- 30 R77: op 0x0 is not one of the three words. -/
theorem test_illformed_op0 : wellFormedWord 0x0123 = false ∧ decode 0x0123 = .error .op0 := by decide

/-- 30 R77: op 0x5 with n not 0. -/
theorem test_illformed_op5 : wellFormedWord 0x5121 = false ∧ decode 0x5121 = .error .op5 := by decide

/-- 30 R77: op 0x8 with n = 8. -/
theorem test_illformed_op8 : wellFormedWord 0x8128 = false ∧ decode 0x8128 = .error .op8 := by decide

/-- 30 R77: op 0x9 with n not 0. -/
theorem test_illformed_op9 : wellFormedWord 0x912F = false ∧ decode 0x912F = .error .op9 := by decide

/-- 30 R77: op 0xE with kk = 9F. -/
theorem test_illformed_opE : wellFormedWord 0xE19F = false ∧ decode 0xE19F = .error .opE := by decide

/-- 30 R77: op 0xF with kk = 00. -/
theorem test_illformed_opF : wellFormedWord 0xF100 = false ∧ decode 0xF100 = .error .opF := by decide

/-- 40 R86: one byte is no instruction. -/
theorem test_illformed_truncated : decodeBytes [0x60] = .error .truncated := by decide

/-- 30 R77: the last word of op 0x8 that is none, beside the one that is. -/
theorem test_illformed_8xyF : wellFormedWord 0x812F = false ∧ wellFormedWord 0x812E = true := by decide

/-! ### Decoding: one word per constructor, from the patterns of 30 R76 -/

theorem test_decode_halt : decodeBytes [0b00000000, 0b00000000, 0xFF] = .ok (.halt, [0xFF]) := by decide

theorem test_decode_cls : decodeBytes [0b00000000, 0b11100000, 0xFF] = .ok (.cls, [0xFF]) := by decide

theorem test_decode_ret : decodeBytes [0b00000000, 0b11101110, 0xFF] = .ok (.ret, [0xFF]) := by decide

theorem test_decode_jp : decodeBytes [0b00011010, 0b10111100, 0xFF] = .ok (.jp 0xABC, [0xFF]) := by decide

theorem test_decode_call : decodeBytes [0b00100100, 0b00000001, 0xFF] = .ok (.call 0x401, [0xFF]) := by decide

theorem test_decode_seImm : decodeBytes [0b00110001, 0b01000010, 0xFF] = .ok (.seImm 0x1 0x42, [0xFF]) := by decide

theorem test_decode_sneImm : decodeBytes [0b01001010, 0b10000001, 0xFF] = .ok (.sneImm 0xA 0x81, [0xFF]) := by decide

theorem test_decode_seReg : decodeBytes [0b01010001, 0b00100000, 0xFF] = .ok (.seReg 0x1 0x2, [0xFF]) := by decide

theorem test_decode_ldImm : decodeBytes [0b01101010, 0b01000010, 0xFF] = .ok (.ldImm 0xA 0x42, [0xFF]) := by decide

theorem test_decode_addImm : decodeBytes [0b01111111, 0b00000001, 0xFF] = .ok (.addImm 0xF 0x01, [0xFF]) := by decide

theorem test_decode_ldReg : decodeBytes [0b10000001, 0b00100000, 0xFF] = .ok (.ldReg 0x1 0x2, [0xFF]) := by decide

theorem test_decode_orReg : decodeBytes [0b10000001, 0b00100001, 0xFF] = .ok (.orReg 0x1 0x2, [0xFF]) := by decide

theorem test_decode_andReg : decodeBytes [0b10000001, 0b00100010, 0xFF] = .ok (.andReg 0x1 0x2, [0xFF]) := by decide

theorem test_decode_xorReg : decodeBytes [0b10000001, 0b00100011, 0xFF] = .ok (.xorReg 0x1 0x2, [0xFF]) := by decide

theorem test_decode_addReg : decodeBytes [0b10000001, 0b11110100, 0xFF] = .ok (.addReg 0x1 0xF, [0xFF]) := by decide

theorem test_decode_sub : decodeBytes [0b10001111, 0b00100101, 0xFF] = .ok (.sub 0xF 0x2, [0xFF]) := by decide

theorem test_decode_shr : decodeBytes [0b10000001, 0b00100110, 0xFF] = .ok (.shr 0x1 0x2, [0xFF]) := by decide

theorem test_decode_subn : decodeBytes [0b10000001, 0b00100111, 0xFF] = .ok (.subn 0x1 0x2, [0xFF]) := by decide

theorem test_decode_shl : decodeBytes [0b10000001, 0b00101110, 0xFF] = .ok (.shl 0x1 0x2, [0xFF]) := by decide

theorem test_decode_sneReg : decodeBytes [0b10010001, 0b00100000, 0xFF] = .ok (.sneReg 0x1 0x2, [0xFF]) := by decide

theorem test_decode_ldI : decodeBytes [0b10100001, 0b00100011, 0xFF] = .ok (.ldI 0x123, [0xFF]) := by decide

theorem test_decode_jpV0 : decodeBytes [0b10110011, 0b00000000, 0xFF] = .ok (.jpV0 0x300, [0xFF]) := by decide

theorem test_decode_rnd : decodeBytes [0b11000011, 0b00001111, 0xFF] = .ok (.rnd 0x3 0x0F, [0xFF]) := by decide

theorem test_decode_drw : decodeBytes [0b11011010, 0b10110010, 0xFF] = .ok (.drw 0xA 0xB 0x2, [0xFF]) := by decide

theorem test_decode_skp : decodeBytes [0b11100001, 0b10011110, 0xFF] = .ok (.skp 0x1, [0xFF]) := by decide

theorem test_decode_sknp : decodeBytes [0b11100001, 0b10100001, 0xFF] = .ok (.sknp 0x1, [0xFF]) := by decide

theorem test_decode_ldVxDT : decodeBytes [0b11110001, 0b00000111, 0xFF] = .ok (.ldVxDT 0x1, [0xFF]) := by decide

theorem test_decode_ldVxK : decodeBytes [0b11110010, 0b00001010, 0xFF] = .ok (.ldVxK 0x2, [0xFF]) := by decide

theorem test_decode_ldDTVx : decodeBytes [0b11110001, 0b00010101, 0xFF] = .ok (.ldDTVx 0x1, [0xFF]) := by decide

theorem test_decode_ldSTVx : decodeBytes [0b11110001, 0b00011000, 0xFF] = .ok (.ldSTVx 0x1, [0xFF]) := by decide

theorem test_decode_addI : decodeBytes [0b11110010, 0b00011110, 0xFF] = .ok (.addI 0x2, [0xFF]) := by decide

theorem test_decode_ldF : decodeBytes [0b11111010, 0b00101001, 0xFF] = .ok (.ldF 0xA, [0xFF]) := by decide

theorem test_decode_ldB : decodeBytes [0b11110011, 0b00110011, 0xFF] = .ok (.ldB 0x3, [0xFF]) := by decide

theorem test_decode_storeRegs : decodeBytes [0b11110011, 0b01010101, 0xFF] = .ok (.storeRegs 0x3, [0xFF]) := by decide

theorem test_decode_loadRegs : decodeBytes [0b11110010, 0b01100101, 0xFF] = .ok (.loadRegs 0x2, [0xFF]) := by decide

/-- The table's numbering: one word of 16 bits, read as it stands. -/
theorem test_decodeTableWord : decodeTableWord 16 0x8F14 = some (.addReg 0xF 0x1) ∧ decodeTableWord 16 0x5121 = none := by decide

/-- The placed instruction is the one fetched, at reset and at a pc no fetch accepts. -/
theorem test_withFetchWord : (State.reset.withFetchWord 16 0x6A42).wordAtPc = 0x6A42 ∧
    ({ State.reset with pc := 0xFFF }.withFetchWord 16 0x6A42).pc = 0x200 := by decide

/-! ### Single cycles, from 95 -/

/-- V9 -/
theorem test_halt : (cycled 0x0000 { State.reset with pc := 0x206 }).map (fun t => (t.status, t.pc)) =
    some (.halted, 0x206) := by decide

/-- V92 -/
theorem test_cls : (cycled 0x00E0 (withLit [(5, 5), (63, 31)] State.reset)).map
      (fun t => (t.disp.pixel 5 5, t.disp.pixel 63 31, t.needsRedraw)) =
    some (false, false, true) := by decide

/-- V10 -/
theorem test_ret : (cycled 0x00EE { State.reset with pc := 0x400, sp := 1, stack := State.reset.stack.set 0 0x204 }).map
      (fun t => (t.pc, t.sp, t.stack[0])) =
    some (0x206, 0, 0x204) := by decide

/-- V11 -/
theorem test_ret_underflow : (cycled 0x00EE { State.reset with pc := 0x400 }).map (fun t => faultOf t) =
    some (some ⟨.stackUnderflow, 0x400, some 0x00EE, 0⟩) := by decide

/-- V12 -/
theorem test_jp : (cycled 0x1ABC State.reset).map (fun t => t.pc) = some 0xABC := by decide

/-- V15 -/
theorem test_call : (cycled 0x2400 { State.reset with pc := 0x250 }).map (fun t => (t.pc, t.sp, t.stack[0])) =
    some (0x400, 1, 0x250) := by decide

/-- V17 -/
theorem test_call_overflow : (cycled 0x2400 { State.reset with pc := 0x250, sp := 16 }).map (fun t => (t.pc, faultOf t)) =
    some (0x250, some ⟨.stackOverflow, 0x250, some 0x2400, 0x10⟩) := by decide

/-- V20 -/
theorem test_seImm : (cycled 0x3110 (withRegs [(1, 0x10)] State.reset)).map (fun t => t.pc) = some 0x204 := by decide

/-- V21 -/
theorem test_seImm_no_skip : (cycled 0x3111 (withRegs [(1, 0x10)] State.reset)).map (fun t => t.pc) = some 0x202 := by decide

/-- V24 -/
theorem test_sneImm : (cycled 0x4111 (withRegs [(1, 0x10)] State.reset)).map (fun t => t.pc) = some 0x204 := by decide

/-- V23 -/
theorem test_sneImm_no_skip : (cycled 0x4110 (withRegs [(1, 0x10)] State.reset)).map (fun t => t.pc) = some 0x202 := by decide

/-- V25 -/
theorem test_seReg : (cycled 0x5120 (withRegs [(1, 0x33), (2, 0x33)] State.reset)).map (fun t => t.pc) = some 0x204 := by decide

/-- V26 -/
theorem test_seReg_no_skip : (cycled 0x5120 (withRegs [(1, 0x33), (2, 0x34)] State.reset)).map (fun t => t.pc) =
    some 0x202 := by decide

/-- V33 -/
theorem test_ldImm : (cycled 0x6A42 State.reset).map (fun t => (t.reg 0xA, t.pc)) = some (0x42, 0x202) := by decide

/-- V35 -/
theorem test_addImm_wraps : (cycled 0x7101 (withRegs [(1, 0xFF), (0xF, 0x07)] State.reset)).map (fun t => (t.reg 1, t.reg VF)) =
    some (0x00, 0x07) := by decide

/-- V36 -/
theorem test_addImm_to_VF : (cycled 0x7F01 (withRegs [(0xF, 0xFF)] State.reset)).map (fun t => t.reg VF) = some 0x00 := by decide

/-- V37 -/
theorem test_ldReg : (cycled 0x8120 (withRegs [(2, 0x7E)] State.reset)).map (fun t => (t.reg 1, t.reg 2)) =
    some (0x7E, 0x7E) := by decide

/-- V38 -/
theorem test_orReg : (cycled 0x8121 (withRegs [(1, 0xF0), (2, 0x0F), (0xF, 0x55)] State.reset)).map (fun t => (t.reg 1, t.reg VF)) =
    some (0xFF, 0x55) := by decide

/-- V39 -/
theorem test_andReg : (cycled 0x8122 (withRegs [(1, 0xF0), (2, 0x3C), (0xF, 0x55)] State.reset)).map
      (fun t => (t.reg 1, t.reg VF)) =
    some (0x30, 0x55) := by decide

/-- V40 -/
theorem test_xorReg : (cycled 0x8123 (withRegs [(1, 0xFF), (2, 0x0F), (0xF, 0x55)] State.reset)).map
      (fun t => (t.reg 1, t.reg VF)) =
    some (0xF0, 0x55) := by decide

/-- V43 -/
theorem test_addReg_carry : (cycled 0x8124 (withRegs [(1, 0xFF), (2, 0x01)] State.reset)).map (fun t => (t.reg 1, t.reg VF)) =
    some (0x00, 0x01) := by decide

/-- V47 -/
theorem test_addReg_to_VF : (cycled 0x8F14 (withRegs [(0xF, 0xFF), (1, 0x01)] State.reset)).map (fun t => t.reg VF) =
    some 0x01 := by decide

/-- V50 -/
theorem test_sub_borrow : (cycled 0x8125 (withRegs [(1, 0x03), (2, 0x05)] State.reset)).map (fun t => (t.reg 1, t.reg VF)) =
    some (0xFE, 0x00) := by decide

/-- V51 -/
theorem test_sub_equal : (cycled 0x8125 (withRegs [(1, 0x07), (2, 0x07)] State.reset)).map (fun t => (t.reg 1, t.reg VF)) =
    some (0x00, 0x00) := by decide

/-- V54 -/
theorem test_shr : (cycled 0x8126 (withRegs [(1, 0x05), (2, 0xAA)] State.reset)).map (fun t => (t.reg 1, t.reg 2, t.reg VF)) =
    some (0x02, 0xAA, 0x01) := by decide

/-- V57 -/
theorem test_shr_VF : (cycled 0x8F06 (withRegs [(0xF, 0x03)] State.reset)).map (fun t => t.reg VF) = some 0x01 := by decide

/-- V58 -/
theorem test_subn : (cycled 0x8127 (withRegs [(1, 0x20), (2, 0x50)] State.reset)).map (fun t => (t.reg 1, t.reg VF)) =
    some (0x30, 0x01) := by decide

/-- V59 -/
theorem test_subn_borrow : (cycled 0x8127 (withRegs [(1, 0x05), (2, 0x03)] State.reset)).map (fun t => (t.reg 1, t.reg VF)) =
    some (0xFE, 0x00) := by decide

/-- V61 -/
theorem test_shl : (cycled 0x812E (withRegs [(1, 0x81)] State.reset)).map (fun t => (t.reg 1, t.reg VF)) =
    some (0x02, 0x01) := by decide

/-- V63 -/
theorem test_shl_high_bit : (cycled 0x812E (withRegs [(1, 0x40)] State.reset)).map (fun t => (t.reg 1, t.reg VF)) =
    some (0x80, 0x00) := by decide

/-- V29 -/
theorem test_sneReg : (cycled 0x9120 (withRegs [(1, 0x33), (2, 0x34)] State.reset)).map (fun t => t.pc) = some 0x204 := by decide

/-- V30 -/
theorem test_sneReg_no_skip : (cycled 0x9120 (withRegs [(1, 0x33), (2, 0x33)] State.reset)).map (fun t => t.pc) =
    some 0x202 := by decide

/-- V70 -/
theorem test_ldI : (cycled 0xA123 State.reset).map (fun t => t.I) = some 0x0123 := by decide

/-- V18 -/
theorem test_jpV0 : (cycled 0xB300 (withRegs [(0, 0x10)] State.reset)).map (fun t => t.pc) = some 0x310 := by decide

/-- V19 -/
theorem test_jpV0_past_memory : (cycled 0xBFFF (withRegs [(0, 0xFF)] State.reset)).map (fun t => t.pc) = some 0x10FE := by decide

/-- V68: under the mask 0 the drawn byte, whichever it is, leaves 0. -/
theorem test_rnd_zero_mask (s : State) : (nextOf (exec (.rnd 3 0x00) s)).map (fun t => (t.reg 3, t.pc)) = some (0x00, s.pc + 2) := by
  simp [exec, execRnd, nextOf, State.reg, State.setReg, State.advance, State.setPc, State.draw]

/-- V96 -/
theorem test_drw_wraps_bottom : (cycled 0xD012 (withRegs [(1, 0x1F)] (withData [0x80, 0x80]))).map
      (fun t => (t.disp.pixel 0 31, t.disp.pixel 0 0, t.disp.pixel 1 0, t.reg VF)) =
    some (true, true, false, 0x00) := by decide

/-- V98 -/
theorem test_drw_collides_through_wrap : (cycled 0xD011 (withRegs [(0, 0x3F)] (withLit [(0, 0)] (withData [0xC0])))).map
      (fun t => (t.disp.pixel 63 0, t.disp.pixel 0 0, t.reg VF)) =
    some (true, false, 0x01) := by decide

/-- V106 -/
theorem test_skp : (cycled 0xE19E (withKeys [7] (withRegs [(1, 0x07)] State.reset))).map (fun t => t.pc) = some 0x204 := by decide

/-- V110 -/
theorem test_skp_out_of_range : (cycled 0xE19E (withRegs [(1, 0x10)] State.reset)).map (fun t => (t.pc, faultOf t)) =
    some (0x200, some ⟨.keyIndexOutOfRange, 0x200, some 0xE19E, 0x10⟩) := by decide

/-- V108 -/
theorem test_sknp : (cycled 0xE1A1 (withRegs [(1, 0x07)] State.reset)).map (fun t => t.pc) = some 0x204 := by decide

/-- V109 -/
theorem test_sknp_pressed : (cycled 0xE1A1 (withKeys [7] (withRegs [(1, 0x07)] State.reset))).map (fun t => t.pc) =
    some 0x202 := by decide

/-- V112 -/
theorem test_ldVxDT : (cycled 0xF107 { State.reset with DT := 5 }).map (fun t => (t.reg 1, t.DT)) = some (0x04, 4) := by decide

/-- V113 -/
theorem test_ldVxDT_zero : (cycled 0xF107 State.reset).map (fun t => (t.reg 1, t.DT)) = some (0x00, 0) := by decide

/-- V115 -/
theorem test_ldVxK : (cycled 0xF20A (withKeys [3, 9] { State.reset with pc := 0x20A })).map (fun t => (t.reg 2, t.pc)) =
    some (0x03, 0x20C) := by decide

/-- V117 -/
theorem test_ldVxK_waits : (cycled 0xF20A { State.reset with pc := 0x20A, DT := 4, ST := 1 }).map (fun t => (t.DT, t.ST, t.pc)) =
    some (3, 0, 0x20A) := by decide

/-- V118 -/
theorem test_ldDTVx : (cycled 0xF115 (withRegs [(1, 0x3C)] { State.reset with DT := 9 })).map (fun t => t.DT) = some 60 := by decide

/-- V119 -/
theorem test_ldSTVx : (cycled 0xF118 (withRegs [(1, 0x02)] State.reset)).map (fun t => (t.ST, t.soundActive)) =
    some (2, true) := by decide

/-- V120 -/
theorem test_ldSTVx_zero : (cycled 0xF118 { State.reset with ST := 9 }).map (fun t => (t.ST, t.soundActive)) =
    some (0, false) := by decide

/-- V73 -/
theorem test_addI : (cycled 0xF11E (withRegs [(1, 0x01)] { State.reset with I := 0xFFF })).map (fun t => (t.I, t.reg VF)) =
    some (0x1000, 0x00) := by decide

/-- V72 -/
theorem test_addI_wraps : (cycled 0xF11E (withRegs [(1, 0x02)] { State.reset with I := 0xFFFF })).map (fun t => t.I) =
    some 0x0001 := by decide

/-- V74 -/
theorem test_ldF : (cycled 0xFA29 (withRegs [(0xA, 0x0A)] State.reset)).map (fun t => t.I) = some 0x0032 := by decide

/-- V75 -/
theorem test_ldF_not_masked : (cycled 0xFA29 (withRegs [(0xA, 0xFF)] State.reset)).map (fun t => t.I) = some 0x04FB := by decide

/-- V83 -/
theorem test_ldB : (cycled 0xF333 (withRegs [(3, 0x7B)] { State.reset with I := 0xFFD })).map
      (fun t => (t.readBytes 0xFFD 3, t.I)) =
    some ([1, 2, 3], 0xFFD) := by decide

/-- V82 -/
theorem test_ldB_out_of_bounds : (cycled 0xF333 (withRegs [(3, 0x01)] { State.reset with I := 0xFFE })).map
      (fun t => (faultOf t, t.readBytes 0xFFE 2)) =
    some (some ⟨.memoryOutOfBounds, 0x200, some 0xF333, 0x1000⟩, [0, 0]) := by decide

/-- V84 -/
theorem test_storeRegs : (cycled 0xF355 (withRegs [(0, 0x01), (1, 0x02), (2, 0x03), (3, 0x04)] { State.reset with I := 0x300 })).map
      (fun t => (t.readBytes 0x300 5, t.I)) =
    some ([1, 2, 3, 4, 0], 0x300) := by decide

/-- V86 -/
theorem test_storeRegs_at_top : (cycled 0xFF55 (withRegs [(0xF, 0x11)] { State.reset with I := 0xFF0 })).map
      (fun t => (t.readBytes 0xFFE 2, t.pc)) =
    some ([0x00, 0x11], 0x202) := by decide

/-- V88 -/
theorem test_loadRegs : (cycled 0xF265 (withRegs [(3, 0x77)] (withData [2, 5, 5, 9]))).map
      (fun t => (t.reg 0, t.reg 1, t.reg 2, t.reg 3)) =
    some (0x02, 0x05, 0x05, 0x77) := by decide

/-- V90 -/
theorem test_loadRegs_out_of_bounds : (cycled 0xF165 { State.reset with I := 0xFFF }).map (fun t => (t.pc, faultOf t)) =
    some (0x200, some ⟨.memoryOutOfBounds, 0x200, some 0xF165, 0x1000⟩) := by decide

/-! ### The engine and the host commands, from 95 L2-1 and L2-8 -/

/-- V5 -/
theorem test_unknown_fatal : (cycled 0x0123 State.reset).map (fun t => (t.pc, faultOf t)) =
    some (0x200, some ⟨.unknownInstruction, 0x200, some 0x0123, 0⟩) := by decide

/-- V6 -/
theorem test_unknown_stall : (cycled 0x0123 { State.reset with DT := 3, config := { defaultConfig with unknownPolicy := .stall } }).map
      (fun t => (t.pc, t.DT, t.status)) =
    some (0x200, 2, .running) := by decide

/-- V1 -/
theorem test_fetch_below_region : (nextOf (step { State.reset with pc := 0x1FE, mem := [(0x1FE, 0x60), (0x1FF, 0x01)] })).map
    (fun t => (t.pc, t.reg 0, faultOf t)) = some (0x1FE, 0x00, some ⟨.pcOutOfRange, 0x1FE, none, 0x1FE⟩) := by decide

/-- V2 -/
theorem test_fetch_below_region_allowed : (cycled 0x6001 { State.reset with pc := 0x1FE, config := { defaultConfig with
    enforceProgramRegion := false } }).map (fun t => (t.pc, t.reg 0, t.status)) = some (0x200, 0x01, .running) := by decide

/-- V3 -/
theorem test_fetch_past_memory : (nextOf (step { State.reset with pc := 0xFFF })).map (fun t => (t.pc, faultOf t)) =
    some (0xFFF, some ⟨.memoryOutOfBounds, 0xFFF, none, 0x1000⟩) := by decide

/-- V4 -/
theorem test_fetch_odd : (nextOf (step { State.reset with pc := 0x301, mem := [(0x301, 0x60), (0x302, 0x42)] })).map
    (fun t => (t.pc, t.reg 0)) = some (0x303, 0x42) := by decide

/-- V121 -/
theorem test_halted_cycle : nextOf (step { State.reset with status := .halted, DT := 5, pc := 0x206 }) =
    some { State.reset with status := .halted, DT := 5, pc := 0x206 } := by decide

/-- V133 -/
theorem test_reset_font : State.reset.readBytes 0x000 5 = [0xF0, 0x90, 0x90, 0x90, 0xF0] ∧
    State.reset.readBytes 0x04B 6 = [0xF0, 0x80, 0xF0, 0x80, 0x80, 0x00] := by decide

/-- V127, V126 -/
theorem test_setKey : (State.reset.hostSetKey 16 true).2 = .badKey ∧ (State.reset.hostSetKey 3 true).1.key[3] = true := by decide

/-- V124 -/
theorem test_load : (({ State.reset with status := .halted }).hostLoad [0x60, 0x01]).1 =
    { State.reset with mem := [(0x200, 0x60), (0x201, 0x01)] } := by decide

/-- V128 -/
theorem test_consumeRedraw : ({ State.reset with needsRedraw := true }.hostConsumeRedraw).2 = .redraw true ∧
    ({ State.reset with needsRedraw := true }.hostConsumeRedraw).1.needsRedraw = false := by decide

/-- 60 R146: the codes. -/
theorem test_codes : statusCode .running = 0 ∧ statusCode .halted = 1 ∧ causeCode .unknownInstruction = 2 ∧
    causeCode .keyIndexOutOfRange = 7 := by decide

/-! ### Witnesses: a state and operands that meet the hypotheses of each obligation that has any -/

/-- A running state whose next fetch reads the word. -/
def holding (w : Nat) : State := State.reset.withFetchWord 16 w

theorem wit_EncodeOfDecodeIsWord : decode 0x6A42 = .ok (.ldImm 0xA 0x42) := by decide

theorem wit_DecoderFollowsOpcodeMap : decode 0x8124 = .ok (.addReg 1 2) ∧ (Instr.addReg 1 2).row ∈ opcodeMap ∧
    (Instr.addReg 1 2).row.matches 0x8124 = true := by decide

theorem wit_StepRunsDecodedInstruction : (holding 0x6A42).status = .running ∧ (holding 0x6A42).FetchOk ∧
    decode (holding 0x6A42).wordAtPc = .ok (.ldImm 0xA 0x42) :=
  ⟨rfl, ⟨fun _ => by decide, by decide⟩, by decide⟩

/-- The last address a fetch accepts. -/
theorem wit_StepRunsDecodedInstruction_top : ({ State.reset with pc := 0xFFE }).status = .running ∧
    ({ State.reset with pc := 0xFFE }).FetchOk ∧ decode ({ State.reset with pc := 0xFFE }).wordAtPc = .ok .halt :=
  ⟨rfl, ⟨fun _ => by decide, by decide⟩, by decide⟩

theorem wit_FetchIsBigEndian : (holding 0x6A42).status = .running ∧ (holding 0x6A42).FetchOk ∧
    (nextOf (step (holding 0x6A42))).map (fun t => t.lastWord) = some 0x6A42 :=
  ⟨rfl, ⟨fun _ => by decide, by decide⟩, by decide⟩

theorem wit_StoppedMachineStaysStopped (r : FaultRecord) : ({ State.reset with status := .halted }).status ≠ .running ∧
    ({ State.reset with status := .faulted r }).status ≠ .running ∧
    ∀ c ∈ [Command.reset, .load [0x60, 0x01], .setKey 16 true, .consumeRedraw],
      ∃ t a, command c { State.reset with status := .halted } = .next (t, a) := by
  refine ⟨by simp, by simp, fun c hc => ?_⟩
  simp only [List.mem_cons, List.not_mem_nil, or_false] at hc
  rcases hc with rfl | rfl | rfl | rfl <;> exact ⟨_, _, rfl⟩

/-- The largest ROM is accepted and leaves a halted machine running; one byte more is rejected and leaves it halted. -/
theorem wit_StoppedMachineStaysStopped_load : (List.replicate 3584 (0x12 : Byte)).length ≤ 3584 ∧
    (∃ t, command (.load (List.replicate 3584 0x12)) { State.reset with status := .halted } = .next (t, .ok) ∧
      t.status = .running) ∧
    ∃ t, command (.load (List.replicate 3585 0x12)) { State.reset with status := .halted } = .next (t, .romTooLarge) ∧
      t.status = .halted := by
  refine ⟨?_, ⟨_, congrArg Host.Outcome.next (if_neg ?_), rfl⟩, ⟨_, congrArg Host.Outcome.next (if_pos ?_), rfl⟩⟩ <;>
    rw [List.length_replicate] <;> decide

theorem wit_FetchFaultsAreRecorded : State.reset.status = .running ∧ State.reset.config.enforceProgramRegion = true ∧
    ({ State.reset with pc := 0x1FF }).pc.toNat < 0x200 ∧ 0xFFE < ({ State.reset with pc := 0xFFF }).pc.toNat ∧
    0xFFE < ({ State.reset with pc := 0xFFFF }).pc.toNat := by decide

theorem wit_UnknownWordFollowsPolicy : (holding 0x0123).status = .running ∧ (holding 0x0123).FetchOk ∧
    decode (holding 0x0123).wordAtPc = .error .op0 ∧ (holding 0x0123).config.unknownPolicy = .fatal :=
  ⟨rfl, ⟨fun _ => by decide, by decide⟩, by decide, rfl⟩

/-- The same word under policy Stall. -/
theorem wit_UnknownWordFollowsPolicy_stall :
    let s := { holding 0x0123 with config := { defaultConfig with unknownPolicy := .stall } }
    s.status = .running ∧ s.FetchOk ∧ decode s.wordAtPc = .error .op0 ∧ s.config.unknownPolicy = .stall :=
  ⟨rfl, ⟨fun _ => by decide, by decide⟩, by decide, rfl⟩

theorem wit_EveryRunningCycleTicksOnce : (holding 0xF115).status = .running ∧
    (nextOf (step (holding 0xF115))).map (fun t => decode t.lastWord) = some (.ok (.ldDTVx 1)) ∧
    ({ State.reset with status := .halted }).status ≠ .running := by decide

/-- One fault of the fetch, one of an instruction. -/
theorem wit_FaultsArePrecise : State.reset.status = .running ∧ (holding 0x00EE).status = .running ∧
    (nextOf (step { State.reset with pc := 0x1000 })).map State.status =
      some (.faulted ⟨.memoryOutOfBounds, 0x1000, none, 0x1000⟩) ∧
    (nextOf (step (holding 0x00EE))).map State.status = some (.faulted ⟨.stackUnderflow, 0x200, some 0x00EE, 0⟩) := by decide

/-- A running, a halted and a faulted state that meet the invariant; each has a next state. -/
theorem wit_StepKeepsInvariant : (holding 0x6A42).Inv ∧ ({ State.reset with status := .halted }).Inv ∧
    ({ State.reset with status := .faulted ⟨.memoryOutOfBounds, 0xFFF, none, 0x1000⟩, pc := 0xFFF }).Inv ∧
    (nextOf (step (holding 0x6A42))).isSome = true := by
  refine ⟨⟨by decide, trivial⟩, ⟨by decide, rfl, by decide, fun _ => by decide, by decide⟩, ⟨by decide, rfl, ?_⟩, by decide⟩
  exact .inl ⟨rfl, by decide, by decide⟩

theorem wit_CommandsKeepInvariant : State.reset.Inv ∧ ∀ c ∈ [Command.reset, .load [0x60, 0x01], .setKey 15 true, .consumeRedraw],
    ∃ t a, command c State.reset = .next (t, a) := by
  refine ⟨⟨by decide, trivial⟩, fun c hc => ?_⟩
  simp only [List.mem_cons, List.not_mem_nil, or_false] at hc
  rcases hc with rfl | rfl | rfl | rfl <;> exact ⟨_, _, rfl⟩

theorem wit_OnlyClsAndDrwTouchDisplay : Instr.ldF 1 ≠ .cls ∧ ∀ x y n, Instr.ldF 1 ≠ .drw x y n := by simp

theorem wit_OnlyCallAndRetTouchStack : Instr.jp 0x300 ≠ .ret ∧ ∀ nnn, Instr.jp 0x300 ≠ .call nnn := by simp

theorem wit_KeypadBelongsToHost : (nextOf (step State.reset)).isSome = true ∧
    ∀ x, Instr.ldVxDT 1 ≠ .skp x ∧ Instr.ldVxDT 1 ≠ .sknp x ∧ Instr.ldVxDT 1 ≠ .ldVxK x := by
  exact ⟨by decide, by simp⟩

theorem wit_WritersOfIndexAndMemory : (∃ t, exec (.loadRegs 1) State.reset = .next t) ∧ (∀ nnn, Instr.loadRegs 1 ≠ .ldI nnn) ∧
    (∀ x, Instr.loadRegs 1 ≠ .addI x ∧ Instr.loadRegs 1 ≠ .ldF x) ∧
    ∀ x, Instr.loadRegs 1 ≠ .ldB x ∧ Instr.loadRegs 1 ≠ .storeRegs x := ⟨⟨_, rfl⟩, by simp, by simp, by simp⟩

/-- An instruction that faults, one that does not, a word that is none. -/
theorem wit_PcFollowsItsClass : State.reset.status = .running ∧
    (nextOf (exec .ret State.reset)).map State.status = some (.faulted ⟨.stackUnderflow, 0x200, some 0x0000, 0⟩) ∧
    (nextOf (exec (.jp 0x300) State.reset)).map State.status = some .running ∧
    (nextOf (step (holding 0x8128))).map (fun t => decode t.lastWord) = some (.error .op8) := by decide

theorem wit_OnlyListedRegistersAreWritten : (∃ t, exec (.addReg 1 2) State.reset = .next t) ∧ ¬(Instr.addReg 1 2).writesReg 2 :=
  ⟨⟨_, rfl⟩, by simp only [Instr.writesReg]; decide⟩

theorem wit_UnlistedRegistersAreNotRead : ¬(Instr.shr 1 2).readsReg 2 ∧ ¬(Instr.shr 1 2).writesReg 2 := by
  simp only [Instr.readsReg, Instr.writesReg]; decide

/-- The last byte of the array, and a range that begins in it and leaves it. -/
theorem wit_MemoryReadsWhatWasWritten : 0xFFF + [(0x12 : Byte)].length ≤ 0x1000 ∧ 0 < [(0x12 : Byte), 0x34].length ∧
    0x1000 < 0xFFF + [(0x12 : Byte), 0x34].length := by decide

theorem wit_EqualMemoriesAreEqualData : Memory.wf State.reset.base (holding 0x6A42).mem ∧
    ∀ a < 4096, (holding 0x6A42).mem.read State.reset.base a = Memory.read State.reset.base [(0x200, 0x6A), (0x201, 0x42)] a :=
  ⟨by decide, fun _ _ => rfl⟩

/-- `Fx55` writes the word 6042 at the next pc. -/
def selfWriting : State := withRegs [(0, 0x60), (1, 0x42)] { State.reset with I := 0x202 }

theorem wit_FetchSeesEarlierStore : ∃ t, exec (.storeRegs 1) selfWriting = .next t ∧ t.status = .running ∧
    (1 : Reg).val = (0 : Reg).val + 1 ∧ (1 : Reg) ≤ 1 ∧ t.pc.toNat = selfWriting.indexAddr + (0 : Reg).val ∧
    (selfWriting.config.enforceProgramRegion = true → 0x200 ≤ t.pc.toNat) ∧
    decode (selfWriting.reg 0 ++ selfWriting.reg 1) = .ok (.ldImm 0 0x42) :=
  ⟨_, rfl, rfl, rfl, by decide, by decide, fun _ => by decide, by decide⟩

theorem wit_OnlyRndReadsADraw (x : Reg) (kk : Byte) : decode (holding 0x6A42).wordAtPc ≠ .ok (.rnd x kk) := by
  rw [show decode (holding 0x6A42).wordAtPc = .ok (.ldImm 0xA 0x42) by decide]; simp

theorem wit_ParametersAreFixed : ∃ t r, command .consumeRedraw State.reset = .next (t, r) := ⟨_, _, rfl⟩

/-- The largest ROM, and one byte more. -/
theorem wit_LoadAcceptsUpToMaxRom : (List.replicate 3584 (0x12 : Byte)).length ≤ 3584 ∧
    3584 < (List.replicate 3585 (0x12 : Byte)).length := by simp only [List.length_replicate]; omega

theorem wit_SetKeyAndConsumeRedraw : 15 ≤ 15 ∧ 15 < 16 := by decide

theorem wit_ReturnPopsAndAdvances : ({ State.reset with sp := 1 }).sp.val = (0 : Fin 16).val + 1 ∧
    ({ State.reset with sp := 16 }).sp.val = (15 : Fin 16).val + 1 ∧ State.reset.sp = 0 := by decide

theorem wit_CallPushesOwnAddress : State.reset.sp.val = (0 : Fin 16).val ∧
    ({ State.reset with sp := 15 }).sp.val = (15 : Fin 16).val ∧ ({ State.reset with sp := 16 }).sp = 16 := by decide

theorem wit_CallThenReturnComesBack : ({ State.reset with sp := 15 }).sp.val < 16 := by decide

theorem wit_SkipsOnRegisters : (1 : Fin 16) ≠ 0 ∧ (15 : Fin 16) ≠ 0 := by decide

theorem wit_flag_instructions_result : (0x0 : Reg) ≠ VF ∧ (0xE : Reg) ≠ VF := by decide

theorem wit_RandomByteStaysUnderMask : (0x0F : Byte).getLsbD (4 : Fin 8).val = false := by decide

theorem wit_BcdStoresDecimalDigits : ({ State.reset with I := 0xFFD }).indexAddr + 2 ≤ 0xFFF ∧
    0xFFF < ({ State.reset with I := 0xFFE }).indexAddr + 2 := by decide

theorem wit_StoreRegistersCopiesToMemory : ({ State.reset with I := 0xFF0 }).indexAddr + (0xF : Reg).val ≤ 0xFFF ∧
    0xFFF < ({ State.reset with I := 0xFF1 }).indexAddr + (0xF : Reg).val ∧ (0xF : Reg) ≤ 0xF := by decide

theorem wit_LoadRegistersCopiesFromMemory : ({ State.reset with I := 0xFFF }).indexAddr + (0 : Reg).val ≤ 0xFFF ∧
    0xFFF < ({ State.reset with I := 0xFFF }).indexAddr + (1 : Reg).val ∧ (0 : Reg) ≤ 0 := by decide

/-- No row at an address outside memory; the last row on the last byte; one row more. -/
theorem wit_DrawXorsSpriteMask : ((0 : Rows) = 0 ∨ ({ State.reset with I := 0xFFFF }).indexAddr + (0 : Rows).val ≤ 0x1000) ∧
    ((15 : Rows) = 0 ∨ ({ State.reset with I := 0xFF1 }).indexAddr + (15 : Rows).val ≤ 0x1000) ∧
    (15 : Rows) ≠ 0 ∧ 0x1000 < ({ State.reset with I := 0xFF2 }).indexAddr + (15 : Rows).val := by decide

/-- A pixel under the sprite and lit, and one beside it: the glyph 0 drawn at the corner. -/
theorem wit_DrawXorsSpriteMask_pixels : State.reset.spriteMask 5 0 0 0 0 ∧ ¬State.reset.spriteMask 5 0 0 1 1 ∧
    (∃ px py, (withLit [(0, 0)] State.reset).spriteMask 5 0 0 px py ∧ (withLit [(0, 0)] State.reset).disp.pixel px py = true) ∧
    ¬∃ px py, State.reset.spriteMask 5 0 0 px py ∧ State.reset.disp.pixel px py = true := by
  refine ⟨⟨0, by decide, 0, by decide, by decide, by decide, by decide⟩, ?_, ?_, ?_⟩
  · unfold State.spriteMask; decide
  · exact ⟨0, 0, ⟨0, by decide, 0, by decide, by decide, by decide, by decide⟩, by decide⟩
  · rintro ⟨px, py, -, h⟩
    exact absurd h (by rw [show State.reset.disp.pixel px py = false by
      simp [State.reset, State.resetWith, Display.pixel]]; simp)

theorem wit_ClearThenDrawLeavesSprite : (15 : Rows) = 0 ∨ ({ State.reset with I := 0xFF1 }).indexAddr + (15 : Rows).val ≤ 0x1000 := by
  decide

theorem wit_KeySkipsSampleKey : ((withRegs [(1, 0x0F)] State.reset).reg 1).toNat = (0xF : Fin 16).val ∧
    0xF < ((withRegs [(1, 0x10)] State.reset).reg 1).toNat := by decide

theorem wit_ReadDelayTimerAfterTick : (holding 0xF107).status = .running ∧ (holding 0xF107).FetchOk ∧
    decode (holding 0xF107).wordAtPc = .ok (.ldVxDT 1) :=
  ⟨rfl, ⟨fun _ => by decide, by decide⟩, by decide⟩

/-- Keys 3 and 9 pressed, key F alone, none. -/
theorem wit_WaitKeyTakesLowestKey : (withKeys [3, 9] State.reset).key[(3 : Fin 16).val] = true ∧
    (∀ j : Fin 16, j < 3 → (withKeys [3, 9] State.reset).key[j.val] = false) ∧
    (withKeys [0xF] State.reset).key[(0xF : Fin 16).val] = true ∧
    (∀ j : Fin 16, j < 0xF → (withKeys [0xF] State.reset).key[j.val] = false) ∧
    ∀ k : Fin 16, State.reset.key[k.val] = false := by decide

end Sys2Proof.Tests
end

section
/-! SUPPORT and PROOF. The count of draws, the model's own field (00 R18): setting it to another count commutes with every shared
operation, with every instruction but `Cxkk`, and with the front of a cycle; so a cycle reads a draw only through `Cxkk` (40 R97). -/

namespace Sys2Proof.Machine

/-- The state with another count of draws. -/
def State.setDraws (s : State) (n : Nat) : State := { s with draws := n }

/-- The front of a cycle with the state it hands over mapped. -/
def Front.map (f : State → State) : Front → Front
  | .stop s => .stop (f s)
  | .run i s => .run i (f s)

/-! ### The shared operations -/

theorem State.skipIf_setDraws (s : State) (n : Nat) (c : Bool) : (s.setDraws n).skipIf c = (s.skipIf c).setDraws n := by
  rw [State.skipIf_eq, State.skipIf_eq]; rfl

theorem State.push_setDraws (s : State) (n : Nat) (v : Word) :
    (s.setDraws n).push v = (s.push v).map fun t => t.setDraws n := by
  rcases Nat.lt_or_ge s.sp.val 16 with h | h
  · rw [s.push_ok v h, (s.setDraws n).push_ok v h]; rfl
  · have h16 : s.sp = 16 := Fin.ext (Nat.le_antisymm s.sp.is_le h)
    rw [s.push_full v h16, (s.setDraws n).push_full v h16]; rfl

theorem State.pop_setDraws (s : State) (n : Nat) :
    (s.setDraws n).pop = s.pop.map fun p => (p.1, p.2.setDraws n) := by
  rcases Nat.eq_zero_or_pos s.sp.val with h | h
  · rw [s.pop_empty (Fin.ext h), (s.setDraws n).pop_empty (Fin.ext h)]; rfl
  · rw [s.pop_ok h, (s.setDraws n).pop_ok h]; rfl

theorem State.readBytes_setDraws (s : State) (n a k : Nat) : (s.setDraws n).readBytes a k = s.readBytes a k := by
  induction k generalizing a with
  | zero => rfl
  | succ k ih => exact congrArg (s.readByte a :: ·) (ih (a + 1))

theorem State.memRead_setDraws (s : State) (n a k : Nat) : (s.setDraws n).memRead a k = s.memRead a k := by
  rw [State.memRead, State.memRead, State.readBytes_setDraws]

theorem State.memWrite_setDraws (s : State) (n a : Nat) (bs : List Byte) :
    (s.setDraws n).memWrite a bs = (s.memWrite a bs).map fun t => t.setDraws n := by
  rcases rangeFault_cases a bs.length with ⟨h, -⟩ | ⟨h0, h, -⟩
  · rw [s.memWrite_ok h, (s.setDraws n).memWrite_ok h]; rfl
  · rw [s.memWrite_error h0 h, (s.setDraws n).memWrite_error h0 h]; rfl

theorem State.setRegsFrom_setDraws (bs : List Byte) (s : State) (n i : Nat) :
    (s.setDraws n).setRegsFrom i bs = (s.setRegsFrom i bs).setDraws n := by
  induction bs generalizing s i with
  | nil => rfl
  | cons b bs ih =>
    rw [State.setRegsFrom, State.setRegsFrom]
    split
    · exact ih (s.setReg _ b) (i + 1)
    · rfl

/-- An instruction that checks first commutes when its check and what it goes on to do commute: a fault it takes records no draw. -/
theorem attempt_setDraws {α : Type} {c c' : Except Raise α} {s : State} {n : Nat} {k k' : α → State} (g : α → α)
    (hc : c' = c.map g) (hk : ∀ a, k' (g a) = (k a).setDraws n) :
    attempt c' (s.setDraws n) k' = mapNext (fun t => t.setDraws n) (attempt c s k) := by
  subst hc
  cases c with
  | error r => rfl
  | ok a => exact congrArg Host.Outcome.next (hk a)

/-- The same where the check gives a value no draw is part of. -/
theorem attempt_setDraws_of_check_eq {α : Type} {c c' : Except Raise α} {s : State} {n : Nat} {k k' : α → State} (hc : c' = c)
    (hk : ∀ a, k' a = (k a).setDraws n) :
    attempt c' (s.setDraws n) k' = mapNext (fun t => t.setDraws n) (attempt c s k) :=
  attempt_setDraws id (by rw [hc, Except.map_id]; rfl) hk

/-! ### The instructions and the front of a cycle -/

/-- Every instruction but `Cxkk` does the same whatever the count of draws, and keeps the count. -/
theorem exec_setDraws {i : Instr} (hi : ∀ x kk, i ≠ .rnd x kk) (s : State) (n : Nat) :
    exec i (s.setDraws n) = mapNext (fun t => t.setDraws n) (exec i s) := by
  cases i
  case rnd x kk => exact absurd rfl (hi x kk)
  case ret => exact attempt_setDraws _ (s.pop_setDraws n) fun _ => rfl
  case call => exact attempt_setDraws _ (s.push_setDraws n s.pc) fun _ => rfl
  case ldB | storeRegs => exact attempt_setDraws _ (s.memWrite_setDraws n _ _) fun _ => rfl
  case drw => exact attempt_setDraws_of_check_eq (s.memRead_setDraws n _ _) fun _ => rfl
  case loadRegs =>
    exact attempt_setDraws_of_check_eq (s.memRead_setDraws n _ _) fun bs => congrArg State.advance (s.setRegsFrom_setDraws bs n 0)
  case skp | sknp => exact attempt_setDraws_of_check_eq rfl fun _ => s.skipIf_setDraws n _
  case seImm | sneImm | seReg | sneReg => exact congrArg Host.Outcome.next (s.skipIf_setDraws n _)
  case ldVxK x =>
    have hkey : (s.setDraws n).firstKey = s.firstKey := rfl
    rw [exec, exec, execLdVxK, execLdVxK, hkey]
    cases s.firstKey <;> rfl
  all_goals rfl

theorem State.unknownWord_setDraws (s : State) (n : Nat) : (s.setDraws n).unknownWord = s.unknownWord.setDraws n := by
  have hconfig : (s.setDraws n).config = s.config := rfl
  rw [State.unknownWord, State.unknownWord, hconfig]
  cases s.config.unknownPolicy <;> rfl

theorem State.front_setDraws (s : State) (n : Nat) : (s.setDraws n).front = s.front.map fun t => t.setDraws n := by
  have hstatus : (s.setDraws n).status = s.status := rfl
  have hfetch : (s.setDraws n).tick.fetch = s.tick.fetch := rfl
  rw [State.front, State.front, hstatus, hfetch]
  cases s.status with
  | halted => rfl
  | faulted r => rfl
  | running =>
    cases s.tick.fetch with
    | error r => rfl
    | ok w =>
      dsimp only
      cases decode w with
      | ok i => rfl
      | error r => exact congrArg Front.stop ((s.tick.setLastWord w).unknownWord_setDraws n)

/-- The instruction a cycle executes is the one the word at pc decodes to (40 R86, R89). -/
theorem State.decode_wordAtPc_of_front_run {s t : State} {i : Instr} (h : s.front = .run i t) : decode s.wordAtPc = .ok i := by
  rcases s.front_cases with ⟨-, hf⟩ | ⟨-, -, -, hf⟩ | ⟨-, -, hf⟩ | ⟨-, -, ⟨j, hd, hf⟩ | ⟨r, -, hf⟩⟩ <;> rw [hf] at h <;> cases h
  exact hd

/-- A cycle on any word but a `Cxkk` does the same whatever the count of draws, and keeps the count. -/
theorem step_setDraws {s : State} (h : ∀ x kk, decode s.wordAtPc ≠ .ok (.rnd x kk)) (n : Nat) :
    step (s.setDraws n) = mapNext (fun t => t.setDraws n) (step s) := by
  rw [step, step, s.front_setDraws n]
  cases hf : s.front with
  | stop t => rfl
  | run i t =>
    have hdecode := State.decode_wordAtPc_of_front_run hf
    exact exec_setDraws (fun x kk hi => h x kk (hi ▸ hdecode)) t n

/-- `Cxkk` takes the one draw the count names, and leaves it under the mask in Vx (43 R122). -/
theorem exec_rnd_draws (x : Reg) (kk : Byte) (s : State) :
    ∃ t, exec (.rnd x kk) s = .next t ∧ t.draws = s.draws + 1 ∧ t.reg x = Config.randomByte s.draws &&& kk :=
  ⟨_, rfl, rfl, State.reg_setReg_self s.draw.2 x (s.draw.1 &&& kk)⟩

/-- Settles O27: setting the count of draws commutes with the front of a cycle and with every instruction but `Cxkk`; `Cxkk` takes one
draw (log entry 3). -/
theorem onlyRndReadsADraw : Obligations.OnlyRndReadsADraw := by
  unfold Obligations.OnlyRndReadsADraw
  exact ⟨fun _ n h => step_setDraws h n, exec_rnd_draws⟩

end Sys2Proof.Machine
end

section
/-! SUPPORT. When a change `f` of the state commutes with a shared operation: what an instruction neither reads nor writes passes
through it. Reading memory looks at memory and the font alone; the stack controller at the stack and sp; an instruction that checks
first commutes when its check and what it goes on to do commute. -/

namespace Sys2Proof.Machine

variable {f : State → State} {s : State}

theorem State.readBytes_congr {t : State} (hmem : t.mem = s.mem) (hconfig : t.config = s.config) (a n : Nat) :
    t.readBytes a n = s.readBytes a n := by
  have hbyte : t.readByte = s.readByte := by
    funext a; rw [State.readByte, State.readByte, State.base, State.base, hmem, hconfig]
  induction n generalizing a with
  | zero => rfl
  | succ n ih => rw [State.readBytes, State.readBytes, hbyte, ih]

theorem State.memRead_congr (s t : State) (hmem : t.mem = s.mem) (hconfig : t.config = s.config) (a n : Nat) :
    t.memRead a n = s.memRead a n := by
  rw [State.memRead, State.memRead, State.readBytes_congr hmem hconfig]

theorem State.memWrite_map {a : Nat} {bs : List Byte} (h : (f s).writeBytes a bs = f (s.writeBytes a bs)) :
    (f s).memWrite a bs = (s.memWrite a bs).map f := by
  rcases rangeFault_cases a bs.length with ⟨hin, -⟩ | ⟨h0, hout, -⟩
  · rw [s.memWrite_ok hin, (f s).memWrite_ok hin, h]; rfl
  · rw [s.memWrite_error h0 hout, (f s).memWrite_error h0 hout]; rfl

theorem State.pop_map (hsp : (f s).sp = s.sp) (hstack : (f s).stack = s.stack)
    (h : ∀ k n, { f s with stack := k, sp := n } = f { s with stack := k, sp := n }) :
    (f s).pop = s.pop.map fun p => (p.1, f p.2) := by
  simp only [State.pop, hsp, hstack]
  split
  · rfl
  · exact congrArg (fun t => Except.ok (_, t)) (h _ _)

theorem State.push_map {v : Word} (hsp : (f s).sp = s.sp) (hstack : (f s).stack = s.stack)
    (h : ∀ k n, { f s with stack := k, sp := n } = f { s with stack := k, sp := n }) : (f s).push v = (s.push v).map f := by
  simp only [State.push, hsp, hstack]
  split
  · exact congrArg Except.ok (h _ _)
  · rfl

theorem State.skipIf_map (h : ∀ w, (f s).setPc w = f (s.setPc w)) (hpc : (f s).pc = s.pc) (c : Bool) :
    (f s).skipIf c = f (s.skipIf c) := by
  rw [State.skipIf_eq, State.skipIf_eq, hpc, h]

/-- An instruction that checks first commutes with `f` when taking a fault, its check, and what it goes on to do commute. -/
theorem attempt_map {α : Type} {c c' : Except Raise α} {k k' : α → State} (g : α → α)
    (hfault : ∀ r, (f s).raise r (some (f s).lastWord) = f (s.raise r (some s.lastWord)))
    (hcheck : c' = c.map g) (hgo : ∀ a, c = .ok a → k' (g a) = f (k a)) :
    attempt c' (f s) k' = mapNext f (attempt c s k) := by
  subst hcheck
  cases c with
  | error r => exact congrArg Host.Outcome.next (hfault r)
  | ok a => exact congrArg Host.Outcome.next (hgo a rfl)

/-- The same where the check gives a value `f` is no part of. -/
theorem attempt_map_of_check_eq {α : Type} {c c' : Except Raise α} {k k' : α → State}
    (hfault : ∀ r, (f s).raise r (some (f s).lastWord) = f (s.raise r (some s.lastWord)))
    (hcheck : c' = c) (hgo : ∀ a, c = .ok a → k' a = f (k a)) :
    attempt c' (f s) k' = mapNext f (attempt c s k) :=
  attempt_map id hfault (by rw [hcheck, Except.map_id]; rfl) hgo

end Sys2Proof.Machine
end

section
/-! PROOF. Non-interference of the stack, the keypad and the display (10 R30, R35, R37): overwriting any of the three commutes with
every instruction that does not use it. -/

namespace Sys2Proof.Machine

/-- What to overwrite: the stack with sp, the keypad, the display with its flag; each or none. -/
structure Overlay where
  stack : Option (Vector Word 16 × Fin 17) := none
  key : Option (Vector Bool 16) := none
  display : Option (Display × Bool) := none

/-- The state with the pieces of the overlay in place of its own. -/
def State.overlay (o : Overlay) (s : State) : State :=
  { s with
    stack := o.stack.elim s.stack Prod.fst
    sp := o.stack.elim s.sp Prod.snd
    key := o.key.getD s.key
    disp := o.display.elim s.disp Prod.fst
    needsRedraw := o.display.elim s.needsRedraw Prod.snd }

theorem State.overlay_skipIf (o : Overlay) (s : State) (c : Bool) : (s.overlay o).skipIf c = (s.skipIf c).overlay o :=
  State.skipIf_map (fun _ => rfl) rfl c

theorem State.overlay_setRegsFrom (o : Overlay) (bs : List Byte) (s : State) (i : Nat) :
    (s.overlay o).setRegsFrom i bs = (s.setRegsFrom i bs).overlay o := by
  induction bs generalizing s i with
  | nil => rfl
  | cons b bs ih =>
    rw [State.setRegsFrom, State.setRegsFrom]
    split
    · exact ih (s.setReg _ b) (i + 1)
    · rfl

/-- An instruction passes an overlay through unless the overlay has a piece the instruction uses: the stack for `00EE` and `2nnn`, the
keypad for `Ex9E`, `ExA1` and `Fx0A`, the display for `00E0` and `Dxyn`. -/
theorem exec_overlay {i : Instr} {o : Overlay} (hstack : o.stack = none ∨ (i ≠ .ret ∧ ∀ nnn, i ≠ .call nnn))
    (hkey : o.key = none ∨ ∀ x, i ≠ .skp x ∧ i ≠ .sknp x ∧ i ≠ .ldVxK x)
    (hdisplay : o.display = none ∨ (i ≠ .cls ∧ ∀ x y n, i ≠ .drw x y n)) (s : State) :
    exec i (s.overlay o) = mapNext (State.overlay o) (exec i s) := by
  obtain ⟨ostack, okey, odisplay⟩ := o
  dsimp only at hstack hkey hdisplay
  cases i
  case ret =>
    obtain rfl := hstack.resolve_right fun h => h.1 rfl
    exact attempt_map _ (fun _ => rfl) (State.pop_map rfl rfl fun _ _ => rfl) fun _ _ => rfl
  case call nnn =>
    obtain rfl := hstack.resolve_right fun h => h.2 nnn rfl
    exact attempt_map _ (fun _ => rfl) (State.push_map rfl rfl fun _ _ => rfl) fun _ _ => rfl
  case skp x =>
    obtain rfl := hkey.resolve_right fun h => (h x).1 rfl
    exact attempt_map_of_check_eq (fun _ => rfl) rfl fun _ _ => s.overlay_skipIf _ _
  case sknp x =>
    obtain rfl := hkey.resolve_right fun h => (h x).2.1 rfl
    exact attempt_map_of_check_eq (fun _ => rfl) rfl fun _ _ => s.overlay_skipIf _ _
  case ldVxK x =>
    obtain rfl := hkey.resolve_right fun h => (h x).2.2 rfl
    have hfirst : (s.overlay ⟨ostack, none, odisplay⟩).firstKey = s.firstKey := rfl
    rw [exec, exec, execLdVxK, execLdVxK, hfirst]
    cases s.firstKey <;> rfl
  case cls =>
    obtain rfl := hdisplay.resolve_right fun h => h.1 rfl
    rfl
  case drw x y n =>
    obtain rfl := hdisplay.resolve_right fun h => h.2 x y n rfl
    exact attempt_map_of_check_eq (fun _ => rfl) (s.memRead_congr (s.overlay _) rfl rfl _ _) fun _ _ => rfl
  case ldB | storeRegs => exact attempt_map _ (fun _ => rfl) (State.memWrite_map rfl) fun _ _ => rfl
  case loadRegs =>
    exact attempt_map_of_check_eq (fun _ => rfl) (s.memRead_congr (s.overlay _) rfl rfl _ _)
      fun bs _ => congrArg State.advance (s.overlay_setRegsFrom _ bs 0)
  case seImm | sneImm | seReg | sneReg => exact congrArg Host.Outcome.next (s.overlay_skipIf _ _)
  all_goals rfl

/-- Settles O17: an overlay of the display passes through every instruction but `00E0` and `Dxyn`; `00E0` overwrites the display
whatever it was. -/
theorem onlyClsAndDrwTouchDisplay : Obligations.OnlyClsAndDrwTouchDisplay := by
  unfold Obligations.OnlyClsAndDrwTouchDisplay
  refine ⟨fun i s d b hcls hdrw => ?_, fun s d => rfl⟩
  exact exec_overlay (o := { display := some (d, b) }) (.inl rfl) (.inl rfl) (.inr ⟨hcls, hdrw⟩) s

/-- Settles O18: an overlay of the stack and sp passes through every instruction but `00EE` and `2nnn`. -/
theorem onlyCallAndRetTouchStack : Obligations.OnlyCallAndRetTouchStack := by
  unfold Obligations.OnlyCallAndRetTouchStack
  intro i s stk p hret hcall
  exact exec_overlay (o := { stack := some (stk, p) }) (.inr ⟨hret, hcall⟩) (.inl rfl) (.inl rfl) s

end Sys2Proof.Machine
end

section
/-! PROOF. The keypad belongs to the host (10 R35, R46), and no command changes the parameters of the run (10 R43): no cycle and no
instruction writes either. -/

namespace Sys2Proof.Machine

theorem exec_key_config {i : Instr} {s t : State} (h : exec i s = .next t) : t.key = s.key ∧ t.config = s.config := by
  rcases exec_cases h with ⟨c, info, -, rfl⟩ | he
  · exact ⟨rfl, rfl⟩
  · exact ⟨he.key, he.config⟩

theorem step_key_config {s t : State} (h : step s = .next t) : t.key = s.key ∧ t.config = s.config := by
  rcases step_cases h with ⟨-, rfl⟩ | ⟨-, -, -, rfl⟩ | ⟨-, -, rfl⟩ | ⟨-, -, ⟨i, -, hexec⟩ | ⟨r, -, rfl⟩⟩
  · exact ⟨rfl, rfl⟩
  · exact ⟨rfl, rfl⟩
  · exact ⟨rfl, rfl⟩
  · obtain ⟨hkey, hconfig⟩ := exec_key_config hexec
    exact ⟨hkey, hconfig⟩
  · rcases (s.tick.setLastWord s.wordAtPc).unknownWord_cases with ⟨-, hu⟩ | ⟨-, hu⟩ <;> rw [hu] <;> exact ⟨rfl, rfl⟩

/-- Every way a command can end (10 R52): a reset, an accepted load, a key written, the flag cleared, a cycle, or a refused `load` or
`set_key` that changes nothing. -/
theorem command_cases {c : Command} {s t : State} {r : Response} (h : command c s = .next (t, r)) :
    t = s.hostReset ∨ (∃ bs : List Byte, bs.length ≤ 3584 ∧ t = s.hostReset.writeBytes 0x200 bs) ∨
    (∃ keys, t = { s with key := keys }) ∨ t = { s with needsRedraw := false } ∨ step s = .next t ∨ t = s := by
  cases c with
  | reset => cases h; exact .inl rfl
  | load bs =>
    rw [command, State.hostLoad] at h
    split at h
    · cases h; simp
    · next hlen => cases h; exact .inr (.inl ⟨bs, Nat.not_lt.1 hlen, rfl⟩)
  | setKey k p =>
    rw [command, State.hostSetKey] at h
    split at h
    · cases h; exact .inr (.inr (.inl ⟨_, rfl⟩))
    · cases h; simp
  | cycle =>
    rw [command] at h
    cases hstep : step s with
    | next u => rw [hstep] at h; cases h; simp
    | fault r => rw [hstep] at h; cases h
    | refused r => rw [hstep] at h; cases h
  | consumeRedraw => cases h; simp

/-- Settles O28: only a cycle could, and it does not. -/
theorem parametersAreFixed : Obligations.ParametersAreFixed := by
  unfold Obligations.ParametersAreFixed
  intro c s t r h
  rcases command_cases h with rfl | ⟨bs, -, rfl⟩ | ⟨keys, rfl⟩ | rfl | hstep | rfl
  case inr.inr.inr.inr.inl => exact (step_key_config hstep).2
  all_goals rfl

/-! ### The keypad -/

theorem exec_skp_of_reg_zero {x : Reg} {s : State} (h : s.reg x = 0) : exec (.skp x) s = .next (s.skipIf s.key[0]) := by
  rw [exec, execSkp, h]; rfl

theorem exec_sknp_of_reg_zero {x : Reg} {s : State} (h : s.reg x = 0) : exec (.sknp x) s = .next (s.skipIf !s.key[0]) := by
  rw [exec, execSknp, h]; rfl

/-- The three instructions that read the keypad tell a pressed key 0 from none, at every x: after reset they go to another pc. -/
theorem exec_reset_reads_key {x : Reg} {i : Instr} (h : i = .skp x ∨ i = .sknp x ∨ i = .ldVxK x) :
    exec i { State.reset with key := Vector.replicate 16 true } ≠
      mapNext (fun t => { t with key := Vector.replicate 16 true }) (exec i State.reset) := by
  have hreg : State.reset.reg x = 0 := Vector.getElem_replicate _
  have hreg' : State.reg { State.reset with key := Vector.replicate 16 true } x = 0 := hreg
  rcases h with rfl | rfl | rfl <;> intro heq
  · rw [exec_skp_of_reg_zero hreg, exec_skp_of_reg_zero hreg'] at heq
    have hpc : (0x204 : Word) = 0x202 := congrArg State.pc (Host.Outcome.next.inj heq)
    exact absurd hpc (by decide)
  · rw [exec_sknp_of_reg_zero hreg, exec_sknp_of_reg_zero hreg'] at heq
    have hpc : (0x202 : Word) = 0x204 := congrArg State.pc (Host.Outcome.next.inj heq)
    exact absurd hpc (by decide)
  · have hpc : (0x202 : Word) = 0x200 := congrArg State.pc (Host.Outcome.next.inj heq)
    exact absurd hpc (by decide)

theorem command_setKey_ok (s : State) (k : Fin 16) (p : Bool) :
    command (.setKey k.val p) s = .next ({ s with key := s.key.set k.val p }, .ok) := by
  simp [command, State.hostSetKey]

/-- Settles O19: a cycle keeps the keypad, an overlay of it passes through every instruction but the three that read it, and those tell
key 0 pressed from no key. -/
theorem keypadBelongsToHost : Obligations.KeypadBelongsToHost := by
  unfold Obligations.KeypadBelongsToHost
  refine ⟨fun s t h => (step_key_config h).1, fun i s k hi => ?_, fun x i hi => ⟨_, _, exec_reset_reads_key hi⟩,
    fun s k p => ⟨_, command_setKey_ok s k p, Vector.getElem_set_self _⟩,
    fun s => ⟨_, rfl, fun k => Vector.getElem_replicate _⟩⟩
  exact exec_overlay (o := { key := some k }) (.inl rfl) (.inr hi) (.inl rfl) s

end Sys2Proof.Machine
end

section
/-! PROOF. Who writes I, memory and each general register (10 R25, R26, 20 R66): what every instruction keeps of them. -/

namespace Sys2Proof.Machine

theorem attempt_cases {α : Type} {c : Except Raise α} {s t : State} {k : α → State} (h : attempt c s k = .next t) :
    (∃ r : Raise, t = s.faultedWith r.cause (some s.lastWord) r.info) ∨ ∃ a, c = .ok a ∧ t = k a := by
  cases c with
  | error r => cases h; exact .inl ⟨r, rfl⟩
  | ok a => cases h; exact .inr ⟨a, rfl, rfl⟩

/-- A write that passes its check is the write (20 R58). -/
theorem State.memWrite_eq_ok {s t : State} {a : Nat} {bs : List Byte} (h : s.memWrite a bs = .ok t) : t = s.writeBytes a bs := by
  rcases rangeFault_cases a bs.length with ⟨hin, -⟩ | ⟨h0, hout, -⟩
  · rw [s.memWrite_ok hin] at h; cases h; rfl
  · rw [s.memWrite_error h0 hout] at h; cases h

/-- A read that passes its check gives the bytes (20 R57). -/
theorem State.memRead_eq_ok {s : State} {a n : Nat} {bs : List Byte} (h : s.memRead a n = .ok bs) : bs = s.readBytes a n := by
  rcases rangeFault_cases a n with ⟨hin, -⟩ | ⟨h0, hout, -⟩
  · rw [s.memRead_ok hin] at h; cases h; rfl
  · rw [s.memRead_error h0 hout] at h; cases h

/-- A push writes the stack and sp alone. -/
theorem State.push_eq_ok {s t : State} {v : Word} (h : s.push v = .ok t) : ∃ k n, t = { s with stack := k, sp := n } := by
  rw [State.push] at h
  split at h
  · cases h; exact ⟨_, _, rfl⟩
  · cases h

/-- A pop writes sp alone. -/
theorem State.pop_eq_ok {s : State} {p : Word × State} (h : s.pop = .ok p) : ∃ n, p.2 = { s with sp := n } := by
  rw [State.pop] at h
  split at h
  · cases h
  · cases h; exact ⟨_, rfl⟩

/-- What an instruction keeps of I and the registers: I unless it is one of the three that write it, and every register the table does
not list as written. -/
structure KeepsUnlisted (i : Instr) (s t : State) : Prop where
  index : (∀ nnn, i ≠ .ldI nnn) → (∀ x, i ≠ .addI x ∧ i ≠ .ldF x) → t.I = s.I
  regs : ∀ r, ¬i.writesReg r → t.reg r = s.reg r

variable {i : Instr} {s t : State}

theorem keepsUnlisted_of_same (hI : t.I = s.I) (hV : t.V = s.V) : KeepsUnlisted i s t :=
  ⟨fun _ _ => hI, fun r _ => State.reg_congr hV r⟩

theorem keepsUnlisted_of_setReg {x : Reg} {b : Byte} (hI : t.I = s.I) (hV : t.V = (s.setReg x b).V) (hx : i.writesReg x) :
    KeepsUnlisted i s t :=
  ⟨fun _ _ => hI, fun r hr => (State.reg_congr hV r).trans (s.reg_setReg_ne b fun h => hr (h ▸ hx))⟩

theorem keepsUnlisted_of_setRegFlag {x : Reg} {b : Byte} {f : Bool} (hI : t.I = s.I) (hV : t.V = (s.setRegFlag x b f).V)
    (hx : i.writesReg x) (hVF : i.writesReg VF) : KeepsUnlisted i s t := by
  refine ⟨fun _ _ => hI, fun r hr => ?_⟩
  have hrVF : r ≠ VF := fun h => hr (h ▸ hVF)
  have hrx : r ≠ x := fun h => hr (h ▸ hx)
  rw [State.reg_congr hV, State.reg_setRegFlag, if_neg hrVF, if_neg hrx]

theorem setRegsFrom_readBytes_reg_above {x r : Reg} {a : Nat} (h : ¬r ≤ x) :
    (s.setRegsFrom 0 (s.readBytes a (x.val + 1))).reg r = s.reg r := by
  have hlen := s.readBytes_length a (x.val + 1)
  have hxr : x.val < r.val := Fin.not_le.1 h
  rw [State.setRegsFrom_reg _ _ _ (by omega), if_pos (Nat.zero_le _), List.getD_eq_default _ _ (by omega)]

/-- Every instruction keeps what the table does not list for it. -/
theorem exec_keepsUnlisted (h : exec i s = .next t) : KeepsUnlisted i s t := by
  cases i
  case ldImm | addImm | ldReg | orReg | andReg | xorReg | rnd | ldVxDT => cases h; exact keepsUnlisted_of_setReg rfl rfl rfl
  case addReg | sub | shr | subn | shl => cases h; exact keepsUnlisted_of_setRegFlag rfl rfl (.inl rfl) (.inr rfl)
  case ldI nnn => cases h; exact ⟨fun hne _ => absurd rfl (hne nnn), fun _ _ => rfl⟩
  case addI x => cases h; exact ⟨fun _ hne => absurd rfl (hne x).1, fun _ _ => rfl⟩
  case ldF x => cases h; exact ⟨fun _ hne => absurd rfl (hne x).2, fun _ _ => rfl⟩
  case seImm | sneImm | seReg | sneReg => cases h; rw [State.skipIf_eq]; exact keepsUnlisted_of_same rfl rfl
  case ldVxK x =>
    rw [exec, execLdVxK] at h
    split at h
    · cases h; exact keepsUnlisted_of_setReg rfl rfl rfl
    · cases h; exact keepsUnlisted_of_same rfl rfl
  case halt | cls | jp | jpV0 | ldDTVx | ldSTVx => cases h; exact keepsUnlisted_of_same rfl rfl
  all_goals obtain ⟨r, rfl⟩ | ⟨a, ha, rfl⟩ := attempt_cases h; exact keepsUnlisted_of_same rfl rfl
  case ret => obtain ⟨n, hn⟩ := State.pop_eq_ok ha; rw [hn]; exact keepsUnlisted_of_same rfl rfl
  case call => obtain ⟨k, n, rfl⟩ := State.push_eq_ok ha; exact keepsUnlisted_of_same rfl rfl
  case drw => exact keepsUnlisted_of_setReg rfl rfl rfl
  case skp | sknp => rw [State.skipIf_eq]; exact keepsUnlisted_of_same rfl rfl
  case ldB | storeRegs => rw [State.memWrite_eq_ok ha]; exact keepsUnlisted_of_same rfl rfl
  case loadRegs x =>
    rw [State.memRead_eq_ok ha]
    obtain ⟨v, hv⟩ := s.setRegsFrom_frame (s.readBytes s.indexAddr (x.val + 1)) 0
    exact ⟨fun _ _ => (congrArg State.I hv).trans rfl, fun r hr => setRegsFrom_readBytes_reg_above hr⟩

theorem exec_mem (h : exec i s = .next t) (hi : ∀ x, i ≠ .ldB x ∧ i ≠ .storeRegs x) : t.mem = s.mem := by
  rcases exec_cases h with ⟨c, info, -, rfl⟩ | he
  · rfl
  · exact he.mem.resolve_right fun ⟨⟨x, hx⟩, _⟩ => hx.elim (hi x).1 (hi x).2

/-- Settles O20: by what every instruction keeps of I, and by its effect on memory. -/
theorem writersOfIndexAndMemory : Obligations.WritersOfIndexAndMemory := by
  unfold Obligations.WritersOfIndexAndMemory
  exact fun i s t h => ⟨(exec_keepsUnlisted h).index, exec_mem h⟩

/-- Settles O22: by what every instruction keeps of the registers. -/
theorem onlyListedRegistersAreWritten : Obligations.OnlyListedRegistersAreWritten := by
  unfold Obligations.OnlyListedRegistersAreWritten
  exact fun i s t r h hr => (exec_keepsUnlisted h).regs r hr

end Sys2Proof.Machine
end

section
/-! PROOF. A register the table lists as neither read nor written has no influence (10 R25): writing it commutes with the
instruction. -/

namespace Sys2Proof.Machine

variable (s : State) {r x : Reg} (b : Byte)

theorem State.setReg_comm (c : Byte) (h : x ≠ r) : (s.setReg r b).setReg x c = (s.setReg x c).setReg r b := by
  have hval : r.val ≠ x.val := fun hv => h (Fin.ext hv.symm)
  simp only [State.setReg, Vector.set_comm _ _ hval]

theorem State.setRegFlag_comm (c : Byte) (f : Bool) (h : x ≠ r) (hVF : VF ≠ r) :
    (s.setReg r b).setRegFlag x c f = (s.setRegFlag x c f).setReg r b := by
  rw [State.setRegFlag, State.setRegFlag, s.setReg_comm b c h, (s.setReg x c).setReg_comm b _ hVF]

/-- The block V0 to Vx does not see a register above x (44 R129). -/
theorem State.regBlock_setReg_above (h : ¬r ≤ x) : (s.setReg r b).regBlock x = s.regBlock x := by
  have hxr : x.val + 1 ≤ r.val := Fin.not_le.1 h
  simp only [State.regBlock, State.setReg_V, Vector.toList_set, List.take_set_of_le hxr]

/-- Loading a block that ends below a register commutes with writing that register (44 R130). -/
theorem State.setRegsFrom_setReg_above (bs : List Byte) (i : Nat) (h : i + bs.length ≤ r.val) :
    (s.setReg r b).setRegsFrom i bs = (s.setRegsFrom i bs).setReg r b := by
  induction bs generalizing s i with
  | nil => rfl
  | cons c bs ih =>
    simp only [List.length_cons] at h
    have hi : i < 16 := by omega
    have hne : (⟨i, hi⟩ : Reg) ≠ r := fun he => by rw [← he] at h; simp at h
    rw [State.setRegsFrom, State.setRegsFrom, dif_pos hi, dif_pos hi, s.setReg_comm b c hne]
    exact ih (s.setReg ⟨i, hi⟩ c) (i + 1) (by omega)

theorem State.setReg_skipIf {c c' : Bool} (h : c' = c) : (s.setReg r b).skipIf c' = (s.skipIf c).setReg r b :=
  h ▸ State.skipIf_map (f := fun t => t.setReg r b) (fun _ => rfl) rfl c'

variable {s b}

/-- An instruction that ends in a write of another register, with the same value, commutes. -/
theorem next_setReg_advance {c c' : Byte} (hx : ¬r = x) (hc : c' = c) :
    (.next ((s.setReg r b).setReg x c').advance : Result) = mapNext (fun t => t.setReg r b) (.next (s.setReg x c).advance) := by
  rw [hc, s.setReg_comm b c (Ne.symm hx)]; rfl

/-- The same for a result with its flag. -/
theorem next_setRegFlag_advance {c c' : Byte} {f f' : Bool} (hx : ¬(r = x ∨ r = VF)) (hc : c' = c) (hf : f' = f) :
    (.next ((s.setReg r b).setRegFlag x c' f').advance : Result) =
      mapNext (fun t => t.setReg r b) (.next (s.setRegFlag x c f).advance) := by
  obtain ⟨hrx, hrVF⟩ := not_or.1 hx
  rw [hc, hf, s.setRegFlag_comm b c f (Ne.symm hrx) (Ne.symm hrVF)]; rfl

/-- An instruction that checks first commutes when its check and what it goes on to do commute. -/
theorem attempt_setReg {α : Type} {c c' : Except Raise α} {k k' : α → State} (g : α → α) (hcheck : c' = c.map g)
    (hgo : ∀ a, c = .ok a → k' (g a) = (k a).setReg r b) :
    attempt c' (s.setReg r b) k' = mapNext (fun t => t.setReg r b) (attempt c s k) :=
  attempt_map (f := fun t => t.setReg r b) g (fun _ => rfl) hcheck hgo

/-- The same where the check gives a value the register is no part of. -/
theorem attempt_setReg_of_check_eq {α : Type} {c c' : Except Raise α} {k k' : α → State} (hcheck : c' = c)
    (hgo : ∀ a, c = .ok a → k' a = (k a).setReg r b) :
    attempt c' (s.setReg r b) k' = mapNext (fun t => t.setReg r b) (attempt c s k) :=
  attempt_map_of_check_eq (f := fun t => t.setReg r b) (fun _ => rfl) hcheck hgo

theorem State.memWrite_setReg (a : Nat) (bs : List Byte) :
    (s.setReg r b).memWrite a bs = (s.memWrite a bs).map fun t => t.setReg r b :=
  State.memWrite_map (f := fun t => t.setReg r b) rfl

/-- Writing a register that the instruction neither reads nor writes commutes with the instruction. -/
theorem exec_setReg_of_unlisted {i : Instr} (hr : ¬i.readsReg r) (hw : ¬i.writesReg r) :
    exec i (s.setReg r b) = mapNext (fun t => t.setReg r b) (exec i s) := by
  have hreg : ∀ {x}, ¬r = x → (s.setReg r b).reg x = s.reg x := fun h => s.reg_setReg_ne b (Ne.symm h)
  have hread : ∀ a n, (s.setReg r b).memRead a n = s.memRead a n := s.memRead_congr (s.setReg r b) rfl rfl
  cases i
  -- no register read or written
  case halt | cls | jp | ldI => rfl
  case ret => exact attempt_setReg _ (State.pop_map (f := fun t => t.setReg r b) rfl rfl fun _ _ => rfl) fun _ _ => rfl
  case call => exact attempt_setReg _ (State.push_map (f := fun t => t.setReg r b) rfl rfl fun _ _ => rfl) fun _ _ => rfl
  -- registers read alone
  case jpV0 nnn => rw [exec, execJpV0, hreg hr]; rfl
  case ldDTVx x => rw [exec, execLdDTVx, hreg hr]; rfl
  case ldSTVx x => rw [exec, execLdSTVx, hreg hr]; rfl
  case addI x => rw [exec, execAddI, hreg hr]; rfl
  case ldF x => rw [exec, execLdF, hreg hr]; rfl
  case seImm x kk | sneImm x kk => exact congrArg Host.Outcome.next (s.setReg_skipIf b (by rw [hreg hr]))
  case seReg x y | sneReg x y =>
    obtain ⟨hx, hy⟩ := not_or.1 hr
    exact congrArg Host.Outcome.next (s.setReg_skipIf b (by rw [hreg hx, hreg hy]))
  case skp x | sknp x => exact attempt_setReg_of_check_eq (congrArg keyIndex (hreg hr)) fun _ _ => s.setReg_skipIf b rfl
  case ldB x =>
    refine attempt_setReg (fun t => t.setReg r b) ?_ fun _ _ => rfl
    rw [hreg hr]
    exact State.memWrite_setReg _ _
  case storeRegs x =>
    refine attempt_setReg (fun t => t.setReg r b) ?_ fun _ _ => rfl
    rw [s.regBlock_setReg_above b hr]
    exact State.memWrite_setReg _ _
  -- a register written
  case ldImm x kk | ldVxDT x => exact next_setReg_advance hw rfl
  case rnd x kk => exact next_setReg_advance (s := s.draw.2) hw rfl
  case addImm x kk => exact next_setReg_advance hw (by rw [hreg hw])
  case ldReg x y => exact next_setReg_advance hw (hreg hr)
  case orReg x y | andReg x y | xorReg x y =>
    obtain ⟨hx, hy⟩ := not_or.1 hr
    exact next_setReg_advance hx (by rw [hreg hx, hreg hy])
  case addReg x y | sub x y | subn x y =>
    obtain ⟨hx, hy⟩ := not_or.1 hr
    exact next_setRegFlag_advance hw (by rw [hreg hx, hreg hy]) (by rw [hreg hx, hreg hy])
  case shr x y | shl x y => exact next_setRegFlag_advance hw (by rw [hreg hr]) (by rw [hreg hr])
  case ldVxK x =>
    have hfirst : (s.setReg r b).firstKey = s.firstKey := rfl
    rw [exec, exec, execLdVxK, execLdVxK, hfirst]
    cases s.firstKey with
    | none => rfl
    | some k => exact next_setReg_advance hw rfl
  case drw x y n =>
    obtain ⟨hx, hy⟩ := not_or.1 hr
    refine attempt_setReg_of_check_eq (hread _ _) fun rows _ => ?_
    rw [State.drawRows, hreg hx, hreg hy]
    exact congrArg State.advance ((s.showDisplay _).setReg_comm b _ (Ne.symm hw))
  case loadRegs x =>
    refine attempt_setReg_of_check_eq (hread _ _) fun bs hbs => ?_
    have hxr : x.val < r.val := Fin.not_le.1 hw
    have hlen := s.readBytes_length s.indexAddr (x.val + 1)
    rw [State.memRead_eq_ok hbs, s.setRegsFrom_setReg_above b _ 0 (by omega)]
    rfl

/-- Settles O23: writing such a register before the instruction or after it is the same. -/
theorem unlistedRegistersAreNotRead : Obligations.UnlistedRegistersAreNotRead := by
  unfold Obligations.UnlistedRegistersAreNotRead
  exact fun i s r b hr hw => exec_setReg_of_unlisted hr hw

end Sys2Proof.Machine
end

section
/-! PROOF. The host's commands and outputs (10 R34, R36, R38, R44, R49, R53): reset, the keypad, the redraw flag, the framebuffer, the
debug snapshot. -/

namespace Sys2Proof.Machine

/-- Reset memory reads as the font at 0x000 to 0x04F (20 R61). -/
theorem State.hostReset_readByte_font (s : State) (a : Fin 80) : s.hostReset.readByte a.val = s.config.font[a.val] :=
  dif_pos a.isLt

/-- Reset memory reads as 0 from 0x050 on (20 R59). -/
theorem State.hostReset_readByte_zero (s : State) {a : Nat} (h : 80 ≤ a) : s.hostReset.readByte a = 0x00 :=
  dif_neg (Nat.not_lt.2 h)

/-- Settles O29: field by field, from the state `reset` writes. -/
theorem resetLeavesResetValues : Obligations.ResetLeavesResetValues := by
  unfold Obligations.ResetLeavesResetValues
  exact fun s => ⟨s.hostReset, rfl, fun r => Vector.getElem_replicate _, rfl, rfl, fun j => Vector.getElem_replicate _, rfl, rfl,
    rfl, fun k => Vector.getElem_replicate _, Display.pixel_blank, rfl, rfl, rfl, s.hostReset_readByte_font,
    fun _ => s.hostReset_readByte_zero⟩

theorem State.hostSetKey_ok (s : State) {k : Nat} (p : Bool) (h : k < 16) :
    s.hostSetKey k p = ({ s with key := s.key.set k p }, .ok) :=
  dif_pos h

theorem State.hostSetKey_badKey (s : State) {k : Nat} (p : Bool) (h : 15 < k) : s.hostSetKey k p = (s, .badKey) :=
  dif_neg (by omega)

/-- Settles O31: an index up to 15 sets its own key alone, one above changes nothing. -/
theorem setKeyAndConsumeRedraw : Obligations.SetKeyAndConsumeRedraw := by
  unfold Obligations.SetKeyAndConsumeRedraw
  refine fun s => ⟨fun k p hk => ?_, fun k p hk => congrArg Host.Outcome.next (s.hostSetKey_badKey p hk), rfl⟩
  refine ⟨_, congrArg Host.Outcome.next (s.hostSetKey_ok p (by omega)), rfl, fun j => ?_⟩
  simp only [Vector.getElem_set, eq_comm]

/-- The framebuffer is the display's rows one after another. -/
theorem State.framebuffer_eq (s : State) : s.framebuffer = s.disp.flatten.toList := by
  have hrows : s.disp.flatten.toList = (s.disp.toArray.map Vector.toArray).flatten.toList := rfl
  rw [hrows, Array.toList_flatten, Array.toList_map, List.map_map]
  rfl

/-- Settles O32: element y*64 + x of the rows put one after another is element x of row y. -/
theorem framebufferIsRowMajor : Obligations.FramebufferIsRowMajor := by
  unfold Obligations.FramebufferIsRowMajor
  refine fun s => ⟨?_, fun px py => ?_, decide_eq_true_iff⟩
  · rw [s.framebuffer_eq, Vector.length_toList]
  · have hrow : (py.val * 64 + px.val) / 64 = py.val := by omega
    have hcolumn : (py.val * 64 + px.val) % 64 = px.val := by omega
    have hlt : py.val * 64 + px.val < 32 * 64 := by omega
    rw [s.framebuffer_eq, Vector.getElem?_toList, Vector.getElem?_eq_getElem hlt, Vector.getElem_flatten hlt]
    simp only [hrow, hcolumn, Display.pixel]

/-- Settles O33: each field of the word is a quotient or a remainder of it (30 R72). -/
theorem snapshotShowsLastWordFields : Obligations.SnapshotShowsLastWordFields := by
  unfold Obligations.SnapshotShowsLastWordFields
  exact fun s => ⟨rfl, rfl, rfl, rfl, rfl, rfl, rfl, fieldOp_toNat _, fieldX_val _, fieldY_val _, fieldN_val _, fieldKK_toNat _,
    fieldNNN_toNat _⟩

end Sys2Proof.Machine
end

section
/-! PROOF. Setting the timers (46 R143, R144): the two words, their effect and its frame, and the tick of the result. -/

namespace Sys2Proof.Machine

/-- A word given as the number its pattern reads as, in format XKK or XSS (30 R74). -/
theorem ofNat_eq_wordXKK (op : BitVec 4) (x : Reg) (kk : Byte) :
    BitVec.ofNat 16 (op.toNat * 0x1000 + x.val * 0x100 + kk.toNat) = wordXKK op x kk := by
  rw [← wordXKK_toNat, BitVec.ofNat_toNat, BitVec.setWidth_eq]

theorem decode_ldDTVx_number (x : Reg) : decode (BitVec.ofNat 16 (0xF015 + 0x100 * x.val)) = .ok (.ldDTVx x) := by
  have hword : BitVec.ofNat 16 (0xF015 + 0x100 * x.val) = wordXKK 0xF x 0x15 := by
    rw [← ofNat_eq_wordXKK]; congr 1; simp; omega
  rw [hword]; simp [decode, decodeOpF]

theorem decode_ldSTVx_number (x : Reg) : decode (BitVec.ofNat 16 (0xF018 + 0x100 * x.val)) = .ok (.ldSTVx x) := by
  have hword : BitVec.ofNat 16 (0xF018 + 0x100 * x.val) = wordXKK 0xF x 0x18 := by
    rw [← ofNat_eq_wordXKK]; congr 1; simp; omega
  rw [hword]; simp [decode, decodeOpF]

theorem Frame.refl (w : Writes) (s : State) : Frame w s s where
  regs _ _ := rfl
  index _ := rfl
  stack _ := rfl
  sp _ := rfl
  delay _ := rfl
  sound _ := rfl
  display _ := ⟨rfl, rfl⟩
  status _ := rfl
  draws _ := rfl
  key := rfl
  lastWord := rfl
  config := rfl
  memory _ _ := rfl

section
variable {w : Writes} {s t : State}

/-- pc is in every frame. -/
theorem Frame.setPc (h : Frame w s t) (pc : Word) : Frame w s (t.setPc pc) := { h with }

theorem Frame.setDT (h : Frame w s t) (hw : w.delay = true) (b : Byte) : Frame w s (t.setDT b) :=
  { h with delay := fun hf => absurd (hw.symm.trans hf) (by decide) }

theorem Frame.setST (h : Frame w s t) (hw : w.sound = true) (b : Byte) : Frame w s (t.setST b) :=
  { h with sound := fun hf => absurd (hw.symm.trans hf) (by decide) }

end

/-- Settles O60: by the two words, the frames of the two writes, and the tick's count. -/
theorem setTimersFromRegister : Obligations.SetTimersFromRegister := by
  unfold Obligations.SetTimersFromRegister
  exact fun x s => ⟨decode_ldDTVx_number x, decode_ldSTVx_number x,
    ⟨_, rfl, rfl, rfl, ((Frame.refl _ s).setDT rfl _).setPc _, countDown_toNat _⟩,
    _, rfl, rfl, rfl, ((Frame.refl _ s).setST rfl _).setPc _, decide_eq_true_iff, countDown_toNat _⟩

end Sys2Proof.Machine
end

section
/-! SUPPORT. Two facts about the decoder that the invariant needs (30 R76, R77): the one word of `0000`, and that a word in some row of
the opcode map decodes. -/

namespace Sys2Proof

/-- Only the word 0x0000 is a HALT (30 R76). -/
theorem eq_zero_of_decode_halt {w : Word} (h : decode w = .ok .halt) : w = 0x0000 := by
  unfold decode decodeOp0 decodeOp5 decodeOp8 decodeOp9 decodeOpE decodeOpF at h
  repeat' split at h
  all_goals cases h
  next hw => exact BitVec.eq_of_toNat_eq hw

section
variable {w bits : Word}

/-- A row's mask 0xF000 fixes op. -/
theorem fieldOp_of_mask_F000 (h : w &&& 0xF000 = bits) : fieldOp w = fieldOp bits := by
  have hand : fieldOp (w &&& 0xF000) = fieldOp w &&& 0xF#4 := BitVec.extractLsb'_and
  rw [← h, hand, and_ones4]

/-- A row's mask 0xF00F fixes op and n. -/
theorem fields_of_mask_F00F (h : w &&& 0xF00F = bits) : fieldOp w = fieldOp bits ∧ fieldN w = fieldN bits := by
  have hop : fieldOp (w &&& 0xF00F) = fieldOp w &&& 0xF#4 := BitVec.extractLsb'_and
  have hn : (w &&& 0xF00F).extractLsb' 0 4 = w.extractLsb' 0 4 &&& 0xF#4 := BitVec.extractLsb'_and
  rw [and_ones4] at hop hn
  exact h ▸ ⟨hop.symm, congrArg BitVec.toFin hn.symm⟩

/-- A row's mask 0xF0FF fixes op and kk. -/
theorem fields_of_mask_F0FF (h : w &&& 0xF0FF = bits) : fieldOp w = fieldOp bits ∧ fieldKK w = fieldKK bits := by
  have hop : fieldOp (w &&& 0xF0FF) = fieldOp w &&& 0xF#4 := BitVec.extractLsb'_and
  have hkk : fieldKK (w &&& 0xF0FF) = fieldKK w &&& 0xFF#8 := BitVec.extractLsb'_and
  rw [and_ones4] at hop
  rw [and_ones8] at hkk
  exact h ▸ ⟨hop.symm, hkk.symm⟩

/-- A row's mask 0xFFFF fixes the word. -/
theorem eq_of_mask_FFFF (h : w &&& 0xFFFF = bits) : w = bits := BitVec.and_allOnes.symm.trans h

end

/-- A word in an instruction's row decodes: the bits the row fixes choose an arm of the dispatch (30 R75, R76). -/
theorem decode_ok_of_row_matches {i : Instr} {w : Word} (h : i.row.matches w = true) : ∃ j, decode w = .ok j := by
  have hbits := beq_iff_eq.1 h
  cases i <;> dsimp only [Instr.row] at hbits
  case halt | cls | ret => rw [eq_of_mask_FFFF hbits]; exact ⟨_, rfl⟩
  case jp | call | seImm | sneImm | ldImm | addImm | ldI | jpV0 | rnd | drw =>
    rw [decode, fieldOp_of_mask_F000 hbits]; exact ⟨_, rfl⟩
  case seReg =>
    obtain ⟨hop, hn⟩ := fields_of_mask_F00F hbits
    exact ⟨_, by rw [decode, hop]; show decodeOp5 w = _; rw [decodeOp5, hn]; rfl⟩
  case sneReg =>
    obtain ⟨hop, hn⟩ := fields_of_mask_F00F hbits
    exact ⟨_, by rw [decode, hop]; show decodeOp9 w = _; rw [decodeOp9, hn]; rfl⟩
  case ldReg | orReg | andReg | xorReg | addReg | sub | shr | subn | shl =>
    obtain ⟨hop, hn⟩ := fields_of_mask_F00F hbits
    exact ⟨_, by rw [decode, hop]; show decodeOp8 w = _; rw [decodeOp8, hn]; rfl⟩
  case skp | sknp =>
    obtain ⟨hop, hkk⟩ := fields_of_mask_F0FF hbits
    exact ⟨_, by rw [decode, hop]; show decodeOpE w = _; rw [decodeOpE, hkk]; rfl⟩
  case ldVxDT | ldVxK | ldDTVx | ldSTVx | addI | ldF | ldB | storeRegs | loadRegs =>
    obtain ⟨hop, hkk⟩ := fields_of_mask_F0FF hbits
    exact ⟨_, by rw [decode, hop]; show decodeOpF w = _; rw [decodeOpF, hkk]; rfl⟩

/-- A word that decodes to no instruction lies in no row of the opcode map (30 R77). -/
theorem wellFormedWord_of_decode_error {w : Word} {r : Reject} (h : decode w = .error r) : wellFormedWord w = false := by
  refine Bool.eq_false_iff.2 fun hwf => ?_
  obtain ⟨row, hrow, hmatches⟩ := List.any_eq_true.1 hwf
  obtain ⟨i, -, rfl⟩ := List.mem_map.1 hrow
  obtain ⟨j, hj⟩ := decode_ok_of_row_matches hmatches
  rw [h] at hj
  cases hj

end Sys2Proof
end

section
/-! PROOF. The invariant (20 R55, 41 R99, 60 R146, R147, 70 R163, R166): it holds at reset, every cycle keeps it, and so does every
other command. -/

namespace Sys2Proof.Machine

theorem State.resetWith_inv (c : Config) (n : Nat) : (State.resetWith c n).Inv := ⟨State.resetWith_mem_wf c n, trivial⟩

/-- Settles O14: reset lists no memory and is running. -/
theorem invariantHoldsAtReset : Obligations.InvariantHoldsAtReset := by
  unfold Obligations.InvariantHoldsAtReset
  exact State.resetWith_inv _ _

theorem State.statusAgrees_of_running {s : State} (h : s.status = .running) : s.StatusAgrees := by
  rw [State.StatusAgrees, h]; trivial

/-- The fault an instruction takes agrees with the state it is taken in (60 R146). -/
theorem faultAgrees_of_faultsOn {i : Instr} {s : State} {c : Cause} {info : Nat} (hd : decode s.lastWord = .ok i)
    (hfetched : s.FetchedAtPc) (h : FaultsOn i s c info) : FaultAgrees s ⟨c, s.pc, some s.lastWord, info⟩ := by
  rcases h with ⟨rfl, hsp, rfl, rfl⟩ | ⟨⟨nnn, rfl⟩, hsp, rfl, rfl⟩ | ⟨h0, hout, rfl, rfl⟩ | ⟨x, hx, hkey, rfl, rfl⟩
  · exact ⟨rfl, rfl, hfetched, hd, hsp, rfl⟩
  · exact ⟨rfl, rfl, hfetched, ⟨nnn, hd⟩, hsp, rfl⟩
  · exact ⟨rfl, .inr ⟨rfl, hfetched, rfl, i, hd, h0, hout⟩⟩
  · refine ⟨rfl, rfl, hfetched, hkey, x, ?_, rfl⟩
    rcases hx with rfl | rfl
    · exact .inl hd
    · exact .inr hd

/-- An instruction keeps memory canonical and inside the array. -/
theorem exec_mem_wf {i : Instr} {s t : State} (hwf : Memory.wf s.base s.mem) (h : exec i s = .next t) :
    Memory.wf t.base t.mem := by
  rcases exec_cases h with ⟨c, info, -, rfl⟩ | he
  · exact hwf
  · rw [State.base, he.config]
    rcases he.mem with hmem | ⟨-, bs, hin, hmem⟩
    · rw [hmem]; exact hwf
    · rw [hmem]; exact Memory.writeList_wf s.base bs hin hwf

/-- The instruction a fetch gave leaves status in agreement: running as before, halted on the word 0x0000, or faulted on its fault. -/
theorem exec_statusAgrees {i : Instr} {s t : State} (hrun : s.status = .running) (hd : decode s.lastWord = .ok i)
    (hfetched : s.FetchedAtPc) (h : exec i s = .next t) : t.StatusAgrees := by
  rcases exec_cases h with ⟨c, info, hfault, rfl⟩ | he
  · exact faultAgrees_of_faultsOn hd hfetched hfault
  · rcases he.status with hstatus | ⟨rfl, rfl⟩
    · exact State.statusAgrees_of_running (hstatus.trans hrun)
    · exact ⟨eq_zero_of_decode_halt hd, hfetched⟩

/-- Executing an unknown word keeps the invariant (40 R95). -/
theorem unknownWord_inv {s : State} {r : Reject} (hwf : Memory.wf s.base s.mem) (hrun : s.status = .running)
    (hd : decode s.lastWord = .error r) (hfetched : s.FetchedAtPc) : s.unknownWord.Inv := by
  rcases s.unknownWord_cases with ⟨hfatal, hu⟩ | ⟨-, hu⟩ <;> rw [hu]
  · exact ⟨hwf, rfl, rfl, hfetched, wellFormedWord_of_decode_error hd, hfatal, rfl⟩
  · exact ⟨hwf, State.statusAgrees_of_running hrun⟩

/-- Every cycle keeps the invariant. -/
theorem step_inv {s t : State} (hs : s.Inv) (h : step s = .next t) : t.Inv := by
  have hwf := hs.1
  rcases step_cases h with ⟨-, rfl⟩ | ⟨-, henforce, hlow, rfl⟩ | ⟨-, hhigh, rfl⟩ | ⟨hrun, hok, ⟨i, hd, hexec⟩ | ⟨r, hd, rfl⟩⟩
  · exact hs
  · exact ⟨hwf, rfl, rfl, henforce, hlow, rfl⟩
  · exact ⟨hwf, rfl, .inl ⟨rfl, hhigh, rfl⟩⟩
  · exact ⟨exec_mem_wf (s := s.tick.setLastWord s.wordAtPc) hwf hexec,
      exec_statusAgrees (s := s.tick.setLastWord s.wordAtPc) hrun hd ⟨rfl, hok⟩ hexec⟩
  · exact unknownWord_inv (s := s.tick.setLastWord s.wordAtPc) hwf hrun hd ⟨rfl, hok⟩

/-- The bytes an accepted load writes lie inside the array (70 R166). -/
theorem State.load_inv (s : State) {bs : List Byte} (h : bs.length ≤ 3584) : (s.hostReset.writeBytes 0x200 bs).Inv :=
  ⟨Memory.writeList_wf _ bs (by omega) (State.resetWith_mem_wf s.config s.draws), trivial⟩

/-- Settles O16: a reset and a load build a running state with canonical memory, a key and the redraw flag are no part of the
invariant, and a cycle keeps it. -/
theorem commandsKeepInvariant : Obligations.CommandsKeepInvariant := by
  unfold Obligations.CommandsKeepInvariant
  intro c s t r hs h
  rcases command_cases h with rfl | ⟨bs, hlen, rfl⟩ | ⟨keys, rfl⟩ | rfl | hstep | rfl
  · exact State.resetWith_inv _ _
  · exact s.load_inv hlen
  · exact hs
  · exact hs
  · exact step_inv hs hstep
  · exact hs

end Sys2Proof.Machine
end

section
/-! PROOF. Memory and the fetch (20 R55, R57, R58, R63, R64, R67, R69; 40 R86, R88): what a write stores, that canonical memories which
read the same are the same data, the word a cycle fetches, and code stored just before it is fetched. -/

namespace Sys2Proof.Machine

/-- Settles O15: every way a cycle can end keeps memory canonical and status in agreement. -/
theorem stepKeepsInvariant : Obligations.StepKeepsInvariant := by
  unfold Obligations.StepKeepsInvariant
  exact fun s t => step_inv

/-! ### The word a cycle fetches -/

theorem exec_lastWord {i : Instr} {s t : State} (h : exec i s = .next t) : t.lastWord = s.lastWord := by
  rcases exec_cases h with ⟨c, info, -, rfl⟩ | he
  · rfl
  · exact he.lastWord

theorem State.unknownWord_lastWord (s : State) : s.unknownWord.lastWord = s.lastWord := by
  rcases s.unknownWord_cases with ⟨-, hu⟩ | ⟨-, hu⟩ <;> rw [hu]
  rfl

/-- A cycle whose fetch passes its checks leaves the word at pc in `last_word`, however it ends (40 R88). -/
theorem step_lastWord {s t : State} (hrun : s.status = .running) (hok : s.FetchOk) (h : step s = .next t) :
    t.lastWord = s.wordAtPc := by
  obtain ⟨hlo, hhi⟩ := hok
  rcases step_cases h with ⟨hstopped, -⟩ | ⟨-, henforce, hlow, -⟩ | ⟨-, hhigh, -⟩ | ⟨-, -, ⟨i, -, hexec⟩ | ⟨r, -, rfl⟩⟩
  · exact absurd hrun hstopped
  · exact absurd hlow (Nat.not_lt.2 (hlo henforce))
  · exact absurd hhigh (Nat.not_lt.2 hhi)
  · exact exec_lastWord hexec
  · exact State.unknownWord_lastWord _

theorem State.wordAtPc_toNat (s : State) :
    s.wordAtPc.toNat = (s.readByte s.pc.toNat).toNat * 0x100 + (s.readByte (s.pc.toNat + 1)).toNat :=
  toNat_append_mul _ _

/-- Settles O7: `last_word` is the word at pc, whose high byte is the one at the lower address. -/
theorem fetchIsBigEndian : Obligations.FetchIsBigEndian := by
  unfold Obligations.FetchIsBigEndian
  intro s t hrun hok h
  rw [step_lastWord hrun hok h, s.wordAtPc_toNat]

/-! ### Reading back what was written -/

/-- Reading the bytes just written gives them back (20 R67). -/
theorem State.readBytes_writeBytes_self (s : State) (a : Nat) (bs : List Byte) :
    (s.writeBytes a bs).readBytes a bs.length = bs := by
  refine List.ext_getElem (State.readBytes_length _ _ _) fun k _ hk => ?_
  rw [State.readBytes_getElem, s.readByte_writeBytes_inside a k bs hk]

/-- Settles O24: by the two outcomes of the bounds check, and what the written bytes read as. -/
theorem memoryReadsWhatWasWritten : Obligations.MemoryReadsWhatWasWritten := by
  unfold Obligations.MemoryReadsWhatWasWritten
  refine fun s a bs => ⟨fun hin => ?_, fun h0 hout => ⟨s.memWrite_error h0 hout, s.memRead_error h0 hout⟩,
    s.memRead_ok (.inl rfl)⟩
  refine ⟨s.writeBytes a bs, s.memWrite_ok (.inr hin), rfl, fun x hx => s.readByte_writeBytes_outside bs hx, ?_⟩
  rw [State.memRead_ok _ (.inr hin), s.readBytes_writeBytes_self]

/-! ### Canonical memories -/

variable {base : Nat → Byte}

/-- With strictly rising addresses, a listed address reads as its entry. -/
theorem Memory.read_of_mem {m : Memory} {c : Host.Cell} (hs : m.Pairwise fun c d => c.1 < d.1) (hc : c ∈ m) :
    m.read base c.1 = c.2 := by
  induction m with
  | nil => cases hc
  | cons d m ih =>
    obtain ⟨hlt, hs⟩ := List.pairwise_cons.1 hs
    rw [Memory.read]
    rcases List.mem_cons.1 hc with rfl | hc
    · exact if_pos rfl
    · rw [if_neg (hlt c hc).ne, ih hs hc]

/-- What a canonical memory lists is told by what it reads: the addresses of the array that read as something else than unlisted. -/
theorem Memory.mem_iff_read {m : Memory} (h : Memory.wf base m) (c : Host.Cell) :
    c ∈ m ↔ c.1 < 4096 ∧ c.2 ≠ base c.1 ∧ m.read base c.1 = c.2 := by
  obtain ⟨hs, hall⟩ := h
  refine ⟨fun hc => ⟨(hall c hc).1, (hall c hc).2, Memory.read_of_mem hs hc⟩, fun ⟨_, hne, hread⟩ => ?_⟩
  by_contra hc
  have hunlisted : ∀ d ∈ m, d.1 ≠ c.1 := fun d hd hdc =>
    hc (by rwa [← Prod.ext hdc ((Memory.read_of_mem hs hd).symm.trans (hdc ▸ hread))])
  exact hne (hread.symm.trans (Memory.read_of_not_listed base m c.1 hunlisted))

theorem Memory.nodup_of_wf {m : Memory} (h : Memory.wf base m) : m.Nodup :=
  h.1.imp fun hlt heq => hlt.ne (congrArg Prod.fst heq)

/-- Settles O25: the two list the same cells, and a list with strictly rising addresses is determined by its cells. -/
theorem equalMemoriesAreEqualData : Obligations.EqualMemoriesAreEqualData := by
  unfold Obligations.EqualMemoriesAreEqualData
  intro base m n hm hn hread
  have hcells : ∀ c, c ∈ m ↔ c ∈ n := fun c => by
    rw [Memory.mem_iff_read hm, Memory.mem_iff_read hn]
    exact and_congr_right fun hc => by rw [hread c.1 hc]
  have hperm : m.Perm n := (List.perm_ext_iff_of_nodup (Memory.nodup_of_wf hm) (Memory.nodup_of_wf hn)).2 hcells
  exact hperm.eq_of_pairwise (fun c d _ _ hcd hdc => absurd hcd hdc.asymm) hm.1 hn.1

/-! ### Code stored just before it is fetched -/

/-- A cycle whose word decodes is its instruction, executed after the tick with the word in `last_word` (40 R84 to R90). -/
theorem step_of_decode {s : State} {i : Instr} (hrun : s.status = .running) (hok : s.FetchOk) (hd : decode s.wordAtPc = .ok i) :
    step s = exec i (s.tick.setLastWord s.wordAtPc) := by
  obtain ⟨hlo, hhi⟩ := hok
  rcases s.front_cases with ⟨hstopped, -⟩ | ⟨-, henforce, hlow, -⟩ | ⟨-, hhigh, -⟩ | ⟨-, -, ⟨j, hj, hf⟩ | ⟨r, hr, -⟩⟩
  · exact absurd hrun hstopped
  · exact absurd hlow (Nat.not_lt.2 (hlo henforce))
  · exact absurd hhigh (Nat.not_lt.2 hhi)
  · obtain rfl : i = j := Except.ok.inj (hd.symm.trans hj)
    rw [step, hf]
  · rw [hd] at hr; cases hr

/-- The two ways `Fx55` can end (44 R129). -/
theorem exec_storeRegs_cases {x : Reg} {s t : State} (h : exec (.storeRegs x) s = .next t) :
    t = s.faultedWith .memoryOutOfBounds (some s.lastWord) (max s.indexAddr 0x1000) ∨
    (s.indexAddr + (x.val + 1) ≤ 0x1000 ∧ t = (s.writeBytes s.indexAddr (s.regBlock x)).advance) := by
  rw [exec, execStoreRegs] at h
  rcases Nat.lt_or_ge 0x1000 (s.indexAddr + (x.val + 1)) with hout | hin
  · rw [s.memWrite_error (by simp) (by simpa using hout)] at h; cases h
    exact .inl rfl
  · rw [s.memWrite_ok (.inr (by simpa using hin))] at h; cases h
    exact .inr ⟨hin, rfl⟩

/-- After the block V0 to Vx is stored, the byte k places on is Vk. -/
theorem State.readByte_writeBytes_regBlock (s : State) (a : Nat) {x k : Reg} (h : k ≤ x) :
    (s.writeBytes a (s.regBlock x)).readByte (a + k.val) = s.reg k := by
  have hk : k.val < (s.regBlock x).length := by rw [s.regBlock_length]; exact Nat.lt_succ_of_le h
  rw [s.readByte_writeBytes_inside a k.val _ hk, s.regBlock_getElem]

/-- Settles O26: the two stored bytes lie inside memory at the new pc, so the next fetch passes its checks and reads them. -/
theorem fetchSeesEarlierStore : Obligations.FetchSeesEarlierStore := by
  unfold Obligations.FetchSeesEarlierStore
  intro s t x j k i h hrun hkj hkx hpc hlo hd
  obtain rfl | ⟨hin, rfl⟩ := exec_storeRegs_cases h
  · cases hrun
  · have hkx' : k.val ≤ x.val := hkx
    have hjx : j ≤ x := Fin.le_def.2 (by omega)
    have hword : (s.writeBytes s.indexAddr (s.regBlock x)).advance.wordAtPc = s.reg j ++ s.reg k := by
      rw [State.wordAtPc, hpc, Nat.add_assoc, ← hkj, ← s.readByte_writeBytes_regBlock s.indexAddr hjx,
        ← s.readByte_writeBytes_regBlock s.indexAddr hkx]
      rfl
    rw [← hword] at hd ⊢
    exact step_of_decode hrun ⟨hlo, by omega⟩ hd

end Sys2Proof.Machine
end

section
/-! PROOF. The encoding (30 R71 to R83). A word is the word its fields make (R72, R74), so encoding and decoding undo each other; the
dispatch (R75) agrees with the mask rows (R76) and with the list of unknown words (R77). -/

namespace Sys2Proof

section
variable {w : Word} {i : Instr} {op : BitVec 4}

/-! ### The word made of a word's own fields -/

theorem wordNNN_of_fields (hop : (fieldOp w).toNat = op.toNat) : wordNNN op (fieldNNN w) = w := by
  rw [fieldOp_toNat] at hop
  apply BitVec.eq_of_toNat_eq
  rw [wordNNN_toNat, fieldNNN_toNat]; omega

theorem wordXKK_of_fields {kk : Byte} (hop : (fieldOp w).toNat = op.toNat) (hkk : (fieldKK w).toNat = kk.toNat) :
    wordXKK op (fieldX w) kk = w := by
  rw [fieldOp_toNat] at hop
  rw [fieldKK_toNat] at hkk
  apply BitVec.eq_of_toNat_eq
  rw [wordXKK_toNat, fieldX_val]; omega

theorem wordXYN_of_fields {n : Rows} (hop : (fieldOp w).toNat = op.toNat) (hn : (fieldN w).val = n.val) :
    wordXYN op (fieldX w) (fieldY w) n = w := by
  rw [fieldOp_toNat] at hop
  rw [fieldN_val] at hn
  apply BitVec.eq_of_toNat_eq
  rw [wordXYN_toNat, fieldX_val, fieldY_val]; omega

/-! ### Decoding and encoding undo each other -/

/-- Decoding reads back the fields the format put into the word, and the fixed ones choose the arm (30 R74, R75, R83). -/
theorem decode_encode (i : Instr) : decode (encode i) = .ok i := by
  cases i <;> dsimp only [encode]
  case halt | cls | ret => decide
  case jp | call | ldI | jpV0 | seImm | sneImm | ldImm | addImm | rnd | drw => simp [decode]
  case seReg => simp [decode, decodeOp5]
  case ldReg | orReg | andReg | xorReg | addReg | sub | shr | subn | shl => simp [decode, decodeOp8]
  case sneReg => simp [decode, decodeOp9]
  case skp | sknp => simp [decode, decodeOpE]
  case ldVxDT | ldVxK | ldDTVx | ldSTVx | addI | ldF | ldB | storeRegs | loadRegs => simp [decode, decodeOpF]

theorem encode_of_decodeOp0 (h : decodeOp0 w = .ok i) : encode i = w := by
  unfold decodeOp0 at h
  split at h <;> cases h <;> next hw => exact (BitVec.eq_of_toNat_eq hw).symm

theorem encode_of_decodeOp5 (hop : (fieldOp w).toNat = 0x5) (h : decodeOp5 w = .ok i) : encode i = w := by
  unfold decodeOp5 at h
  split at h <;> cases h; next hn => exact wordXYN_of_fields hop hn

theorem encode_of_decodeOp8 (hop : (fieldOp w).toNat = 0x8) (h : decodeOp8 w = .ok i) : encode i = w := by
  unfold decodeOp8 at h
  split at h <;> cases h <;> next hn => exact wordXYN_of_fields hop hn

theorem encode_of_decodeOp9 (hop : (fieldOp w).toNat = 0x9) (h : decodeOp9 w = .ok i) : encode i = w := by
  unfold decodeOp9 at h
  split at h <;> cases h; next hn => exact wordXYN_of_fields hop hn

theorem encode_of_decodeOpE (hop : (fieldOp w).toNat = 0xE) (h : decodeOpE w = .ok i) : encode i = w := by
  unfold decodeOpE at h
  split at h <;> cases h <;> next hkk => exact wordXKK_of_fields hop hkk

theorem encode_of_decodeOpF (hop : (fieldOp w).toNat = 0xF) (h : decodeOpF w = .ok i) : encode i = w := by
  unfold decodeOpF at h
  split at h <;> cases h <;> next hkk => exact wordXKK_of_fields hop hkk

/-- Each arm of the dispatch takes the operands from the fields and fixes the other ones, so the format makes the word again
(30 R72, R74, R75). -/
theorem encode_of_decode (h : decode w = .ok i) : encode i = w := by
  unfold decode at h
  split at h
  case h_1 => exact encode_of_decodeOp0 h
  case h_6 hop => exact encode_of_decodeOp5 hop h
  case h_9 hop => exact encode_of_decodeOp8 hop h
  case h_10 hop => exact encode_of_decodeOp9 hop h
  case h_15 hop => exact encode_of_decodeOpE hop h
  case h_16 =>
    simp only [imp_false] at *
    exact encode_of_decodeOpF (by omega) h
  case h_2 hop | h_3 hop | h_11 hop | h_12 hop => cases h; exact wordNNN_of_fields hop
  case h_4 hop | h_5 hop | h_7 hop | h_8 hop | h_13 hop => cases h; exact wordXKK_of_fields hop rfl
  case h_14 hop => cases h; exact wordXYN_of_fields hop rfl

/-! ### The opcode map -/

open Laws.EncodesInRow in
/-- The word of every instruction has the fixed bits of its row. -/
theorem encodesInRow : ∀ i : Instr, Laws.EncodesInRow.Statement i
  | .halt => halt | .cls => cls | .ret => ret | .jp _ => jp _ | .call _ => call _
  | .seImm _ _ => seImm _ _ | .sneImm _ _ => sneImm _ _ | .seReg _ _ => seReg _ _ | .sneReg _ _ => sneReg _ _
  | .ldImm _ _ => ldImm _ _ | .addImm _ _ => addImm _ _ | .ldReg _ _ => ldReg _ _ | .orReg _ _ => orReg _ _
  | .andReg _ _ => andReg _ _ | .xorReg _ _ => xorReg _ _ | .addReg _ _ => addReg _ _ | .sub _ _ => sub _ _
  | .shr _ _ => shr _ _ | .subn _ _ => subn _ _ | .shl _ _ => shl _ _ | .ldI _ => ldI _ | .jpV0 _ => jpV0 _
  | .rnd _ _ => rnd _ _ | .drw _ _ _ => drw _ _ _ | .skp _ => skp _ | .sknp _ => sknp _
  | .ldVxDT _ => ldVxDT _ | .ldVxK _ => ldVxK _ | .ldDTVx _ => ldDTVx _ | .ldSTVx _ => ldSTVx _ | .addI _ => addI _
  | .ldF _ => ldF _ | .ldB _ => ldB _ | .storeRegs _ => storeRegs _ | .loadRegs _ => loadRegs _

/-- A row does not depend on the operands, so it is one of the 35. -/
theorem row_mem_opcodeMap (i : Instr) : i.row ∈ opcodeMap := by
  cases i <;> dsimp only [Instr.row] <;> decide

theorem row_matches_of_decode (h : decode w = .ok i) : i.row.matches w = true :=
  encode_of_decode h ▸ beq_iff_eq.2 (encodesInRow i)

theorem decode_ok_iff_wellFormedWord : (∃ i, decode w = .ok i) ↔ wellFormedWord w = true := by
  constructor
  · rintro ⟨i, h⟩
    exact List.any_eq_true.2 ⟨i.row, row_mem_opcodeMap i, row_matches_of_decode h⟩
  · intro hwf
    cases h : decode w with
    | ok i => exact ⟨i, rfl⟩
    | error r => exact absurd (wellFormedWord_of_decode_error h) (by simp [hwf])

/-- Two different rows differ at a bit that both fix (30 R81). -/
theorem opcodeMap_bits_disagree :
    ∀ r ∈ opcodeMap, ∀ q ∈ opcodeMap, r.bits &&& q.mask = q.bits &&& r.mask → r = q := by decide

theorem row_unique {r q : OpRow} (hr : r ∈ opcodeMap) (hq : q ∈ opcodeMap) (hrw : r.matches w = true)
    (hqw : q.matches w = true) : r = q := by
  refine opcodeMap_bits_disagree r hr q hq ?_
  rw [← beq_iff_eq.1 hrw, ← beq_iff_eq.1 hqw, BitVec.and_assoc, BitVec.and_assoc, BitVec.and_comm r.mask]

/-! ### The words that are no instruction -/

theorem decodeOp0_error_iff : (∃ r, decodeOp0 w = .error r) ↔ w ≠ 0x0000 ∧ w ≠ 0x00E0 ∧ w ≠ 0x00EE := by
  simp only [ne_eq, ← BitVec.toNat_inj]
  unfold decodeOp0
  split <;> simp_all

theorem decodeOp5_error_iff : (∃ r, decodeOp5 w = .error r) ↔ w.toNat % 0x10 ≠ 0x0 := by
  rw [← fieldN_val, decodeOp5]
  split <;> simp_all

theorem decodeOp9_error_iff : (∃ r, decodeOp9 w = .error r) ↔ w.toNat % 0x10 ≠ 0x0 := by
  rw [← fieldN_val, decodeOp9]
  split <;> simp_all

theorem decodeOp8_error_iff :
    (∃ r, decodeOp8 w = .error r) ↔ w.toNat % 0x10 ∈ [0x8, 0x9, 0xA, 0xB, 0xC, 0xD, 0xF] := by
  rw [← fieldN_val, decodeOp8]
  split
  case h_10 =>
    simp only [imp_false] at *
    exact iff_of_true ⟨_, rfl⟩ (by simp only [List.mem_cons, List.not_mem_nil, or_false]; omega)
  all_goals simp_all

theorem decodeOpE_error_iff : (∃ r, decodeOpE w = .error r) ↔ w.toNat % 0x100 ∉ [0x9E, 0xA1] := by
  rw [← fieldKK_toNat, decodeOpE]
  split <;> simp_all

theorem decodeOpF_error_iff : (∃ r, decodeOpF w = .error r) ↔
    w.toNat % 0x100 ∉ [0x07, 0x0A, 0x15, 0x18, 0x1E, 0x29, 0x33, 0x55, 0x65] := by
  rw [← fieldKK_toNat, decodeOpF]
  split <;> simp_all

end

/-- Settles O1, format by format. -/
theorem decodeOfEncodeIsInstruction : Obligations.DecodeOfEncodeIsInstruction := decode_encode

/-- Settles O2: the word is made of its own fields. -/
theorem encodeOfDecodeIsWord : Obligations.EncodeOfDecodeIsWord := fun _ _ => encode_of_decode

/-- Settles O3: a decoded word is the word of its instruction, which lies in the instruction's row; and no two rows agree on the bits
both fix. -/
theorem decoderFollowsOpcodeMap : Obligations.DecoderFollowsOpcodeMap := by
  unfold Obligations.DecoderFollowsOpcodeMap
  exact ⟨fun _ i h => ⟨row_mem_opcodeMap i, row_matches_of_decode h⟩, fun _ => decode_ok_iff_wellFormedWord,
    fun _ _ hr _ hq => row_unique hr hq, rfl⟩

/-- Settles O4, arm by arm of the dispatch on op. -/
theorem unknownWordsAreExactlyThese : Obligations.UnknownWordsAreExactlyThese := by
  unfold Obligations.UnknownWordsAreExactlyThese
  intro w
  have hlt := w.isLt
  unfold decode
  rw [fieldOp_toNat]
  split
  case h_1 hop => simp [hop, decodeOp0_error_iff]
  case h_6 hop => simp [hop, decodeOp5_error_iff]
  case h_9 hop => simp [hop, decodeOp8_error_iff]
  case h_10 hop => simp [hop, decodeOp9_error_iff]
  case h_15 hop => simp [hop, decodeOpE_error_iff]
  case h_16 =>
    simp only [imp_false] at *
    have hop : w.toNat / 0x1000 = 0xF := by omega
    simp [hop, decodeOpF_error_iff]
  case h_2 hop | h_3 hop | h_4 hop | h_5 hop | h_7 hop | h_8 hop | h_11 hop | h_12 hop | h_13 hop | h_14 hop => simp [hop]

/-- Settles O5: closed words, run through the decoder. -/
theorem sampleWordsDecode : Obligations.SampleWordsDecode := by
  unfold Obligations.SampleWordsDecode
  decide

end Sys2Proof
end

section
/-! PROOF. The skips on two registers (42 R108, R109; 92 D12): their words, the unknown words beside them, and the skip with its frame. -/

namespace Sys2Proof.Machine

/-- A word given as a number decodes to the instruction whose word has that value (30 R76, R83). -/
theorem decode_ofNat {i : Instr} {k : Nat} (h : (encode i).toNat = k) : decode (BitVec.ofNat 16 k) = .ok i := by
  rw [← h, BitVec.ofNat_toNat, BitVec.setWidth_eq, decode_encode]

theorem decode_seReg_number (x y : Reg) : decode (BitVec.ofNat 16 (0x5000 + 0x100 * x.val + 0x10 * y.val)) = .ok (.seReg x y) :=
  decode_ofNat (by rw [encode, wordXYN_toNat]; show 0x5 * 0x1000 + x.val * 0x100 + y.val * 0x10 + 0 = _; omega)

theorem decode_sneReg_number (x y : Reg) : decode (BitVec.ofNat 16 (0x9000 + 0x100 * x.val + 0x10 * y.val)) = .ok (.sneReg x y) :=
  decode_ofNat (by rw [encode, wordXYN_toNat]; show 0x9 * 0x1000 + x.val * 0x100 + y.val * 0x10 + 0 = _; omega)

/-- `5xyN` and `9xyN` with N ≠ 0 are no instructions (30 R77, 92 D12). -/
theorem decode_error_of_op5_or_op9 {k : Nat} (hop : k / 0x1000 = 0x5 ∨ k / 0x1000 = 0x9) (hn : k % 0x10 ≠ 0x0) :
    ∃ r, decode (BitVec.ofNat 16 k) = .error r := by
  have hk : (BitVec.ofNat 16 k).toNat = k := by rw [BitVec.toNat_ofNat]; omega
  exact (unknownWordsAreExactlyThese _).2 (.inr (.inl (by rw [hk]; exact ⟨hop, hn⟩)))

theorem State.skipIf_pc (s : State) (c : Bool) : (s.skipIf c).pc = if c then s.pc + 4 else s.pc + 2 := by
  rw [State.skipIf_eq]; rfl

/-- A skip writes pc only, which is in every frame. -/
theorem Frame.skipIf {w : Writes} {s t : State} (h : Frame w s t) (c : Bool) : Frame w s (t.skipIf c) := by
  rw [State.skipIf_eq]; exact h.setPc _

/-- Settles O40: by the words, the list of unknown words, and the pc and frame of a skip. -/
theorem skipsOnRegisters : Obligations.SkipsOnRegisters := by
  unfold Obligations.SkipsOnRegisters
  refine fun x y s => ⟨decode_seReg_number x y, decode_sneReg_number x y, fun n hn => ?_,
    ⟨_, rfl, ?_, (Frame.refl _ s).skipIf _⟩, _, rfl, ?_, (Frame.refl _ s).skipIf _⟩
  · have hn' : n.val ≠ 0 := Fin.val_ne_of_ne hn
    exact ⟨decode_error_of_op5_or_op9 (.inl (by omega)) (by omega), decode_error_of_op5_or_op9 (.inr (by omega)) (by omega)⟩
  · simp [State.skipIf_pc]
  · simp [State.skipIf_pc]

end Sys2Proof.Machine
end

section
/-! PROOF. The engine (40 R84 to R97, 60 R145 to R150, R156, R162): every cycle answers a next state, what a stopped machine, a fetch
fault and an unknown word make of a cycle, what a fault leaves, the tick, and the pc class of each instruction. -/

namespace Sys2Proof.Machine

/-! ### Every cycle ends in a next state -/

theorem exec_next (i : Instr) (s : State) : ∃ t, exec i s = .next t := by
  cases i
  case ret | call | drw | skp | sknp | ldB | storeRegs | loadRegs => exact attempt_next _ _ _
  case ldVxK x => rw [exec, execLdVxK]; split <;> exact ⟨_, rfl⟩
  all_goals exact ⟨_, rfl⟩

theorem step_next (s : State) : ∃ t, step s = .next t := by
  rw [step]
  cases s.front with
  | stop t => exact ⟨t, rfl⟩
  | run i t => exact exec_next i t

/-- Settles O12: an instruction that checks first takes its fault as a next state, and so does the front of a cycle. -/
theorem everyCycleAnswersNextState : Obligations.EveryCycleAnswersNextState := by
  unfold Obligations.EveryCycleAnswersNextState
  exact ⟨step_next, exec_next⟩

/-! ### The cycle by what its front meets -/

/-- A halted or faulted machine does nothing on a cycle (40 R85). -/
theorem step_of_not_running {s : State} (h : s.status ≠ .running) : step s = .next s := by
  obtain ⟨t, ht⟩ := step_next s
  rcases step_cases ht with ⟨-, rfl⟩ | ⟨hrun, -⟩ | ⟨hrun, -⟩ | ⟨hrun, -⟩
  · exact ht
  all_goals exact absurd hrun h

/-- A fetch that fails is recorded with no word, after the tick (40 R86, R96). -/
theorem step_of_fetch_error {s : State} {r : Raise} (hrun : s.status = .running) (h : s.fetch = .error r) :
    step s = .next (s.tick.faultedWith r.cause none r.info) := by
  have htick : s.tick.fetch = .error r := h
  have hfront : s.front = .stop (s.tick.raise r none) := by simp only [State.front, hrun, htick]
  rw [step, hfront]
  rfl

/-- A cycle whose word does not decode executes the unknown word, after the tick with the word in `last_word` (40 R89, R95). -/
theorem step_of_decode_error {s : State} {r : Reject} (hrun : s.status = .running) (hok : s.FetchOk)
    (hd : decode s.wordAtPc = .error r) : step s = .next (s.tick.setLastWord s.wordAtPc).unknownWord := by
  obtain ⟨hlo, hhi⟩ := hok
  obtain ⟨t, ht⟩ := step_next s
  rcases step_cases ht with ⟨hstopped, -⟩ | ⟨-, henforce, hlow, -⟩ | ⟨-, hhigh, -⟩ | ⟨-, -, ⟨i, hi, -⟩ | ⟨-, -, rfl⟩⟩
  · exact absurd hrun hstopped
  · exact absurd hlow (Nat.not_lt.2 (hlo henforce))
  · exact absurd hhigh (Nat.not_lt.2 hhi)
  · rw [hd] at hi; cases hi
  · exact ht

/-- Settles O6: the state executed in is the one after the tick with the word in `last_word`. -/
theorem stepRunsDecodedInstruction : Obligations.StepRunsDecodedInstruction := by
  unfold Obligations.StepRunsDecodedInstruction
  exact fun s i hrun hok hd => ⟨_, step_of_decode hrun hok hd, countDown_toNat s.DT, countDown_toNat s.ST, rfl⟩

/-- Settles O9: by the two ways a fetch can fail. -/
theorem fetchFaultsAreRecorded : Obligations.FetchFaultsAreRecorded := by
  unfold Obligations.FetchFaultsAreRecorded
  exact fun s hrun => ⟨fun henforce hlow => step_of_fetch_error hrun (s.fetch_low henforce hlow),
    fun hhigh => step_of_fetch_error hrun (s.fetch_high hhigh)⟩

/-- Settles O10: the cycle ends in what the policy makes of the unknown word. -/
theorem unknownWordFollowsPolicy : Obligations.UnknownWordFollowsPolicy := by
  unfold Obligations.UnknownWordFollowsPolicy
  intro s r hrun hok hd
  rw [step_of_decode_error hrun hok hd]
  rcases (s.tick.setLastWord s.wordAtPc).unknownWord_cases with ⟨hfatal, hu⟩ | ⟨hstall, hu⟩ <;> rw [hu]
  · exact ⟨fun _ => rfl, fun h => absurd (hfatal.symm.trans h) (by decide)⟩
  · exact ⟨fun h => absurd (hstall.symm.trans h) (by decide), fun _ => rfl⟩

/-- Settles O8: a cycle of it changes nothing, a key and the redraw flag are no part of status, and a reset and an accepted load leave
it Running. -/
theorem stoppedMachineStaysStopped : Obligations.StoppedMachineStaysStopped := by
  unfold Obligations.StoppedMachineStaysStopped
  refine fun s hs => ⟨step_of_not_running hs, fun c t r h => ?_⟩
  cases c with
  | reset => cases h; exact .inr ⟨rfl, .inl rfl⟩
  | load bs =>
    rw [command, State.hostLoad] at h
    split at h
    · cases h; exact .inl rfl
    · next hlen => cases h; exact .inr ⟨rfl, .inr ⟨bs, rfl, Nat.not_lt.1 hlen⟩⟩
  | setKey k p =>
    rw [command, State.hostSetKey] at h
    split at h <;> cases h <;> exact .inl rfl
  | cycle => rw [command, step_of_not_running hs] at h; cases h; exact .inl rfl
  | consumeRedraw => cases h; exact .inl rfl

/-! ### What a fault leaves -/

/-- An instruction that ends a running machine in a fault writes the record alone, with its own pc and word (40 R93, 60 R147). -/
theorem exec_faulted {i : Instr} {s t : State} {r : FaultRecord} (hrun : s.status = .running) (h : exec i s = .next t)
    (hr : t.status = .faulted r) :
    r.faultPc = s.pc ∧ r.faultWord = some s.lastWord ∧ t = { s with status := .faulted r } := by
  rcases exec_cases h with ⟨c, info, -, rfl⟩ | he
  · cases hr; exact ⟨rfl, rfl, rfl⟩
  · rcases he.status with hstatus | ⟨-, rfl⟩
    · rw [hstatus, hrun] at hr; cases hr
    · cases hr

/-- The same for an unknown word. -/
theorem State.unknownWord_faulted {s : State} {r : FaultRecord} (hrun : s.status = .running)
    (hr : s.unknownWord.status = .faulted r) :
    r.faultPc = s.pc ∧ r.faultWord = some s.lastWord ∧ s.unknownWord = { s with status := .faulted r } := by
  rcases s.unknownWord_cases with ⟨-, hu⟩ | ⟨-, hu⟩ <;> rw [hu] at hr ⊢
  · cases hr; exact ⟨rfl, rfl, rfl⟩
  · rw [hrun] at hr; cases hr

/-- Settles O13: a fault of the fetch is recorded after the tick with no word, any other after `last_word` with that word. -/
theorem faultsArePrecise : Obligations.FaultsArePrecise := by
  unfold Obligations.FaultsArePrecise
  intro s t r hrun h hr
  rcases step_cases h with ⟨hstopped, -⟩ | ⟨-, -, -, rfl⟩ | ⟨-, -, rfl⟩ | ⟨-, -, ⟨i, -, hexec⟩ | ⟨-, -, rfl⟩⟩
  · exact absurd hrun hstopped
  · cases hr; exact ⟨rfl, .inl ⟨rfl, rfl⟩⟩
  · cases hr; exact ⟨rfl, .inl ⟨rfl, rfl⟩⟩
  · obtain ⟨hpc, hword, ht⟩ := exec_faulted (s := s.tick.setLastWord s.wordAtPc) hrun hexec hr
    exact ⟨hpc, .inr ⟨hword, ht⟩⟩
  · obtain ⟨hpc, hword, ht⟩ := State.unknownWord_faulted (s := s.tick.setLastWord s.wordAtPc) hrun hr
    exact ⟨hpc, .inr ⟨hword, ht⟩⟩

/-! ### The tick -/

/-- An unknown word writes status alone, under either policy (40 R95, 92 D5). -/
theorem State.unknownWord_eq (s : State) : ∃ status, s.unknownWord = { s with status := status } := by
  rcases s.unknownWord_cases with ⟨-, hu⟩ | ⟨-, hu⟩ <;> exact ⟨_, hu⟩

/-- An instruction keeps each timer or is the one that sets it from its register. -/
theorem exec_timers {i : Instr} {s t : State} (h : exec i s = .next t) :
    (t.DT = s.DT ∨ ∃ x, i = .ldDTVx x ∧ t.DT = s.reg x) ∧ (t.ST = s.ST ∨ ∃ x, i = .ldSTVx x ∧ t.ST = s.reg x) := by
  rcases exec_cases h with ⟨c, info, -, rfl⟩ | he
  · exact ⟨.inl rfl, .inl rfl⟩
  · exact ⟨he.delay, he.sound⟩

/-- A cycle of a running machine leaves each timer as the tick does, unless its instruction sets it (40 R84, 92 D1). -/
theorem step_timers {s t : State} (hrun : s.status = .running) (h : step s = .next t) :
    (t.DT = countDown s.DT ∨ ∃ x, decode t.lastWord = .ok (.ldDTVx x) ∧ t.DT = s.reg x) ∧
    (t.ST = countDown s.ST ∨ ∃ x, decode t.lastWord = .ok (.ldSTVx x) ∧ t.ST = s.reg x) := by
  rcases step_cases h with ⟨hstopped, -⟩ | ⟨-, -, -, rfl⟩ | ⟨-, -, rfl⟩ | ⟨-, -, ⟨i, hd, hexec⟩ | ⟨-, -, rfl⟩⟩
  · exact absurd hrun hstopped
  · exact ⟨.inl rfl, .inl rfl⟩
  · exact ⟨.inl rfl, .inl rfl⟩
  · have hword : t.lastWord = s.wordAtPc := exec_lastWord hexec
    rw [hword, hd]
    obtain ⟨hdelay, hsound⟩ := exec_timers hexec
    exact ⟨hdelay.imp_right fun ⟨x, hi, hDT⟩ => ⟨x, congrArg _ hi, hDT⟩,
      hsound.imp_right fun ⟨x, hi, hST⟩ => ⟨x, congrArg _ hi, hST⟩⟩
  · obtain ⟨status, hu⟩ := (s.tick.setLastWord s.wordAtPc).unknownWord_eq
    rw [hu]; exact ⟨.inl rfl, .inl rfl⟩

/-- Settles O11: by the count of one tick, and by what a cycle leaves of the ticked timers. -/
theorem everyRunningCycleTicksOnce : Obligations.EveryRunningCycleTicksOnce := by
  unfold Obligations.EveryRunningCycleTicksOnce
  refine ⟨fun s => ⟨countDown_toNat _, countDown_toNat _, rfl⟩, fun s t hrun h => ?_, fun s => step_of_not_running⟩
  obtain ⟨hdelay, hsound⟩ := step_timers hrun h
  refine ⟨hdelay.imp_left fun hDT => ?_, hsound.imp_left fun hST => ?_⟩
  · rw [hDT, countDown_toNat]
  · rw [hST, countDown_toNat]

/-! ### The pc classes -/

/-- The popped address is the entry below sp (41 R100). -/
theorem State.pop_eq_ok_fst {s : State} {p : Word × State} (h : s.pop = .ok p) :
    ∃ k : Fin 16, k.val + 1 = s.sp.val ∧ p.1 = s.stack[k.val] := by
  rcases Nat.eq_zero_or_pos s.sp.val with h0 | hpos
  · rw [s.pop_empty (Fin.ext h0)] at h; cases h
  · rw [s.pop_ok hpos] at h; cases h
    exact ⟨⟨s.sp.val - 1, by omega⟩, Nat.sub_add_cancel hpos, rfl⟩

/-- A register value that passes the key check numbers the key (46 R139). -/
theorem keyIndex_eq_ok {v : Byte} {k : Fin 16} (h : keyIndex v = .ok k) : k.val = v.toNat := by
  rcases Nat.lt_or_ge 0xF v.toNat with hout | hin
  · rw [keyIndex_error hout] at h; cases h
  · rw [keyIndex_ok hin] at h; cases h; rfl

theorem State.keyPressed_iff {s : State} {v : Byte} {k : Fin 16} (h : k.val = v.toNat) :
    s.keyPressed v ↔ s.key[k.val] = true := by
  refine ⟨fun ⟨j, hj, hpressed⟩ => ?_, fun hpressed => ⟨k, h, hpressed⟩⟩
  obtain rfl : j = k := Fin.ext (hj.trans h.symm)
  exact hpressed

/-- The target of `Bnnn` fits 16 bits: the sum needs no mask (41 R104, 92 D23). -/
theorem zextAddr_add_zextByte_toNat (nnn : Addr) (b : Byte) : (zextAddr nnn + zextByte b).toNat = nnn.toNat + b.toNat := by
  have := nnn.isLt
  have := b.isLt
  rw [BitVec.toNat_add, zextAddr_toNat, zextByte_toNat]
  omega

/-- An instruction takes a fault or leaves pc as its class says (40 R91). -/
theorem exec_nextPc {i : Instr} {s t : State} (h : exec i s = .next t) :
    (∃ r : Raise, t = s.faultedWith r.cause (some s.lastWord) r.info) ∨ NextPc i s t.pc := by
  cases i
  case jp nnn => cases h; exact .inr (zextAddr_toNat nnn)
  case jpV0 nnn => cases h; exact .inr (zextAddr_add_zextByte_toNat nnn _)
  case seImm | sneImm | seReg | sneReg => cases h; refine .inr ?_; simp [NextPc, State.skipIf_pc]
  case ldVxK x =>
    rw [exec, execLdVxK] at h
    cases hk : s.firstKey with
    | some k =>
      rw [hk] at h; cases h
      exact .inr ⟨fun _ => rfl, fun hnone => absurd ⟨k, (State.firstKey_some hk).1⟩ hnone⟩
    | none =>
      rw [hk] at h; cases h
      exact .inr ⟨fun ⟨k, hpressed⟩ => absurd hpressed (by simp [State.firstKey_none hk k]), fun _ => rfl⟩
  case halt | cls | ldImm | addImm | ldReg | orReg | andReg | xorReg | addReg | sub | shr | subn | shl | ldI | rnd | ldVxDT | ldDTVx
      | ldSTVx | addI | ldF => cases h; exact .inr rfl
  all_goals refine (attempt_cases h).imp_right ?_; rintro ⟨a, ha, rfl⟩
  case ret =>
    obtain ⟨k, hk, hentry⟩ := State.pop_eq_ok_fst ha
    exact ⟨k, hk, congrArg (· + 2) hentry⟩
  case call => exact zextAddr_toNat _
  case drw => rfl
  case skp | sknp =>
    rw [NextPc, State.keyPressed_iff (keyIndex_eq_ok ha), State.skipIf_pc]
    simp
  case ldB | storeRegs => rw [State.memWrite_eq_ok ha]; rfl
  case loadRegs =>
    obtain ⟨v, hv⟩ := s.setRegsFrom_frame a 0
    rw [hv]; rfl

/-- A cycle after which `last_word` is no instruction executed none, so it left pc. -/
theorem step_pc_of_decode_error {s t : State} {r : Reject} (h : step s = .next t) (hd : decode t.lastWord = .error r) :
    t.pc = s.pc := by
  rcases step_cases h with ⟨-, rfl⟩ | ⟨-, -, -, rfl⟩ | ⟨-, -, rfl⟩ | ⟨-, -, ⟨i, hi, hexec⟩ | ⟨-, -, rfl⟩⟩
  · rfl
  · rfl
  · rfl
  · have hword : t.lastWord = s.wordAtPc := exec_lastWord hexec
    rw [hword, hi] at hd; cases hd
  · obtain ⟨status, hu⟩ := (s.tick.setLastWord s.wordAtPc).unknownWord_eq
    rw [hu]; rfl

/-- Settles O21: an instruction that takes no fault follows its class, and a fault or an unknown word writes no pc. -/
theorem pcFollowsItsClass : Obligations.PcFollowsItsClass := by
  unfold Obligations.PcFollowsItsClass
  refine ⟨fun i s t hrun h => ⟨fun ⟨r, hr⟩ => ?_, fun hnofault => ?_⟩, fun s t r => step_pc_of_decode_error⟩
  · obtain ⟨-, -, rfl⟩ := exec_faulted hrun h hr
    rfl
  · exact (exec_nextPc h).resolve_left fun ⟨r, hfault⟩ => hnofault _ (congrArg State.status hfault)

end Sys2Proof.Machine
end

section
/-! PROOF. Control flow (41 R99 to R104; 92 D6, D7, D8, D20, D23, D26): the words, the two jumps, halt, and the call and the return on
each side of their checks, with what each leaves unchanged. -/

namespace Sys2Proof.Machine

section
variable {w : Writes} {s t : State}

theorem Frame.halt (h : Frame w s t) (hw : w.status = true) : Frame w s t.halt :=
  { h with status := fun hf => absurd (hw.symm.trans hf) (by decide) }

/-- The return stack is its entries and sp: each may change only if the frame lists it. -/
theorem Frame.withStack {entries : Vector Word 16} {n : Fin 17} (h : Frame w s t)
    (hstack : w.stackEntries = true ∨ entries = t.stack) (hsp : w.sp = true ∨ n = t.sp) :
    Frame w s { t with stack := entries, sp := n } :=
  { h with
    stack := fun hf => (hstack.resolve_left (ne_true_of_eq_false hf)).trans (h.stack hf)
    sp := fun hf => (hsp.resolve_left (ne_true_of_eq_false hf)).trans (h.sp hf) }

end

/-! ### The words -/

theorem decode_jp_number (nnn : Addr) : decode (BitVec.ofNat 16 (0x1000 + nnn.toNat)) = .ok (.jp nnn) :=
  decode_ofNat (wordNNN_toNat 0x1 nnn)

theorem decode_call_number (nnn : Addr) : decode (BitVec.ofNat 16 (0x2000 + nnn.toNat)) = .ok (.call nnn) :=
  decode_ofNat (wordNNN_toNat 0x2 nnn)

theorem decode_jpV0_number (nnn : Addr) : decode (BitVec.ofNat 16 (0xB000 + nnn.toNat)) = .ok (.jpV0 nnn) :=
  decode_ofNat (wordNNN_toNat 0xB nnn)

/-! ### Halt and the jumps -/

/-- Settles O34: halt writes the status alone. -/
theorem haltSetsStatusHalted : Obligations.HaltSetsStatusHalted := by
  unfold Obligations.HaltSetsStatusHalted
  exact ⟨decode_encode .halt, fun s => ⟨s.halt, rfl, rfl, rfl, (Frame.refl _ s).halt rfl⟩⟩

/-- Settles O37: both jumps write pc alone, and neither target needs a mask. -/
theorem jumpsSetPc : Obligations.JumpsSetPc := by
  unfold Obligations.JumpsSetPc
  exact fun nnn s => ⟨decode_jp_number nnn, decode_jpV0_number nnn,
    ⟨_, rfl, zextAddr_toNat nnn, (Frame.refl _ s).setPc _⟩,
    _, rfl, zextAddr_add_zextByte_toNat nnn _, (Frame.refl _ s).setPc _⟩

/-! ### The return and the call, on each side of their checks -/

section
variable {s : State} {k : Fin 16}

/-- A return goes 2 past the entry it pops, and the entry stays (41 R101, 10 R32). -/
theorem exec_ret_of_entry (h : s.sp.val = k.val + 1) :
    exec .ret s = .next ({ s with sp := k.castSucc }.setPc (s.stack[k.val] + 2)) := by
  have hk : s.sp.val - 1 = k.val := by omega
  have hsp : (⟨s.sp.val - 1, by omega⟩ : Fin 17) = k.castSucc := Fin.ext hk
  rw [exec, execRet, s.pop_ok (by omega), attempt_ok, hsp]
  simp only [hk]

theorem exec_ret_of_empty (h : s.sp = 0) : exec .ret s = .next (s.faultedWith .stackUnderflow (some s.lastWord) 0) := by
  rw [exec, execRet, s.pop_empty h, attempt_error]

/-- A call stores its own address at sp and jumps (41 R103). -/
theorem exec_call_of_room (nnn : Addr) (h : s.sp.val = k.val) :
    exec (.call nnn) s = .next ({ s with stack := s.stack.set k.val s.pc, sp := k.succ }.setPc (zextAddr nnn)) := by
  have hsp : (⟨s.sp.val + 1, by omega⟩ : Fin 17) = k.succ := Fin.ext (congrArg (· + 1) h)
  rw [exec, execCall, s.push_ok _ (by omega), attempt_ok, hsp]
  simp only [h]

theorem exec_call_of_full (nnn : Addr) (h : s.sp = 16) :
    exec (.call nnn) s = .next (s.faultedWith .stackOverflow (some s.lastWord) 16) := by
  rw [exec, execCall, s.push_full _ h, attempt_error]

end

/-- The entries after a push: the pushed one at its place, the others as they were. -/
theorem stack_set_getElem (entries : Vector Word 16) (k j : Fin 16) (v : Word) :
    (entries.set k.val v)[j.val] = if j = k then v else entries[j.val] := by
  simp only [Vector.getElem_set, Fin.ext_iff, eq_comm]

/-- Settles O35: by the two sides of the return's check. -/
theorem returnPopsAndAdvances : Obligations.ReturnPopsAndAdvances := by
  unfold Obligations.ReturnPopsAndAdvances
  exact ⟨decode_encode .ret,
    fun s _ hsp => ⟨_, exec_ret_of_entry hsp, rfl, rfl, ((Frame.refl _ s).withStack (.inr rfl) (.inl rfl)).setPc _⟩,
    fun _ => exec_ret_of_empty⟩

/-- Settles O36: by the two sides of the call's check. -/
theorem callPushesOwnAddress : Obligations.CallPushesOwnAddress := by
  unfold Obligations.CallPushesOwnAddress
  exact fun nnn => ⟨decode_call_number nnn,
    fun s k hsp => ⟨_, exec_call_of_room nnn hsp, zextAddr_toNat nnn, rfl, fun j => stack_set_getElem s.stack k j s.pc,
      ((Frame.refl _ s).withStack (.inl rfl) (.inl rfl)).setPc _⟩,
    fun _ => exec_call_of_full nnn⟩

/-- Settles O38: the return pops the entry the call has just pushed, so sp is back and only that entry and pc have changed. -/
theorem callThenReturnComesBack : Obligations.CallThenReturnComesBack := by
  unfold Obligations.CallThenReturnComesBack
  intro nnn s hroom
  obtain ⟨k, hk⟩ : ∃ k : Fin 16, s.sp.val = k.val := ⟨s.sp.castLT hroom, rfl⟩
  have htop : (s.stack.set k.val s.pc)[k.val] = s.pc := Vector.getElem_set_self _
  have hsp : k.castSucc = s.sp := Fin.ext hk.symm
  refine ⟨_, _, exec_call_of_room nnn hk, exec_ret_of_entry (k := k) rfl, congrArg (· + 2) htop, hsp, fun j hj => ?_,
    ((Frame.refl _ s).withStack (.inl rfl) (.inr hsp)).setPc _⟩
  have hne : j ≠ k := by omega
  exact (stack_set_getElem s.stack k j s.pc).trans (if_neg hne)

end Sys2Proof.Machine
end

section
/-! PROOF. The skips on an immediate (42 R106, R107): their words, and the skip with its frame. -/

namespace Sys2Proof.Machine

/-- The value of an `op x kk` word, its fields summed as 42 and 43 write them. -/
theorem wordXKK_toNat_sum (op : BitVec 4) (x : Reg) (kk : Byte) :
    (wordXKK op x kk).toNat = op.toNat * 0x1000 + 0x100 * x.val + kk.toNat := by
  rw [wordXKK_toNat, Nat.mul_comm x.val]

theorem decode_seImm_number (x : Reg) (kk : Byte) : decode (BitVec.ofNat 16 (0x3000 + 0x100 * x.val + kk.toNat)) = .ok (.seImm x kk) :=
  decode_ofNat (wordXKK_toNat_sum 0x3 x kk)

theorem decode_sneImm_number (x : Reg) (kk : Byte) : decode (BitVec.ofNat 16 (0x4000 + 0x100 * x.val + kk.toNat)) = .ok (.sneImm x kk) :=
  decode_ofNat (wordXKK_toNat_sum 0x4 x kk)

/-- Settles O39: by the words, and the pc and frame of a skip. -/
theorem skipsOnImmediate : Obligations.SkipsOnImmediate := by
  unfold Obligations.SkipsOnImmediate
  refine fun x kk s => ⟨decode_seImm_number x kk, decode_sneImm_number x kk,
    ⟨_, rfl, ?_, (Frame.refl _ s).skipIf _⟩, _, rfl, ?_, (Frame.refl _ s).skipIf _⟩
  · simp [State.skipIf_pc]
  · simp [State.skipIf_pc]

end Sys2Proof.Machine
end

section
/-! SUPPORT. What the register writes of the ALU leave (43 R110): the frame of a register write, of a result with its flag and of a
draw; the value of an `op x y n` word; and the results and flags of Machine/Flags.lean as operations on bit vectors. -/

namespace Sys2Proof.Machine

/-! ### The words -/

/-- The value of an `8xyn` word, its fields summed as 43 writes them. -/
theorem wordXYN_op8_toNat_sum (x y : Reg) (n : Rows) :
    (wordXYN 0x8 x y n).toNat = 0x8000 + n.val + 0x100 * x.val + 0x10 * y.val := by
  have hop : (0x8 : BitVec 4).toNat = 0x8 := rfl
  rw [wordXYN_toNat, hop]; omega

theorem decode_op8_number {i : Instr} {x y : Reg} (n : Rows) (h : encode i = wordXYN 0x8 x y n) :
    decode (BitVec.ofNat 16 (0x8000 + n.val + 0x100 * x.val + 0x10 * y.val)) = .ok i :=
  decode_ofNat (h ▸ wordXYN_op8_toNat_sum x y n)

/-! ### The frames -/

section
variable {w : Writes} {s t : State}

theorem Frame.setReg {x : Reg} (h : Frame w s t) (hx : x ∈ w.regs) (b : Byte) : Frame w s (t.setReg x b) :=
  { h with
    regs := fun r hr =>
      have hne : r ≠ x := fun he => hr (he ▸ hx)
      (t.reg_setReg_ne b hne).trans (h.regs r hr) }

theorem Frame.setRegFlag {x : Reg} (h : Frame w s t) (hx : x ∈ w.regs) (hVF : VF ∈ w.regs) (b : Byte) (f : Bool) :
    Frame w s (t.setRegFlag x b f) :=
  (h.setReg hx b).setReg hVF (flagByte f)

theorem Frame.draw (h : Frame w s t) (hw : w.draws = true) : Frame w s t.draw.2 :=
  { h with draws := fun hf => absurd (hw.symm.trans hf) (by decide) }

end

/-! ### A result without a flag -/

theorem State.reg_setReg_advance (s : State) (x : Reg) (b : Byte) : (s.setReg x b).advance.reg x = b :=
  s.reg_setReg_self x b

theorem State.frame_setReg_advance (s : State) (x : Reg) (b : Byte) : Frame { regs := [x] } s (s.setReg x b).advance :=
  ((Frame.refl _ s).setReg List.mem_cons_self b).setPc _

/-! ### A result with its flag -/

theorem flagByte_decide (p : Prop) [Decidable p] : flagByte (decide p) = if p then 0x01 else 0x00 := by
  simp only [flagByte, decide_eq_true_eq]

theorem sub8_eq_sub (a b : Byte) : sub8 a b = a - b := by
  have := b.isLt
  apply BitVec.eq_of_toNat_eq
  rw [sub8_toNat, BitVec.toNat_sub]; omega

theorem half8_eq_shiftRight (a : Byte) : half8 a = a >>> 1 := by
  apply BitVec.eq_of_toNat_eq
  rw [half8_toNat, BitVec.toNat_ushiftRight, Nat.shiftRight_eq_div_pow, pow_one]

theorem double8_eq_shiftLeft (a : Byte) : double8 a = a <<< 1 := by
  apply BitVec.eq_of_toNat_eq
  rw [double8_toNat, BitVec.toNat_shiftLeft, Nat.shiftLeft_eq, pow_one]

theorem lowBit_eq_getLsbD (a : Byte) : lowBit a = a.getLsbD 0 := by
  rw [lowBit, BitVec.getLsbD, Nat.testBit_zero]

theorem highBit_eq_getLsbD (a : Byte) : highBit a = a.getLsbD 7 := by
  have hlt : a.toNat / 128 < 2 := by have := a.isLt; omega
  rw [highBit, BitVec.getLsbD, Nat.testBit_eq_decide_div_mod_eq]
  exact congrArg (fun k => decide (k = 1)) (Nat.mod_eq_of_lt hlt).symm

/-- An instruction that ends in a result and its flag: VF ends as the flag whatever x is, Vx as the result unless x is F, and nothing
else but pc changes (43 R110, 92 D9). -/
theorem State.setRegFlag_advance_spec (s : State) (x : Reg) {b c v : Byte} {f : Bool} (hb : b = c) (hf : flagByte f = v) :
    ∃ t, (.next (s.setRegFlag x b f).advance : Result) = .next t ∧ (x ≠ VF → t.reg x = c) ∧ t.reg VF = v ∧ t.pc = s.pc + 2 ∧
      Frame { regs := [x, VF] } s t := by
  subst hb hf
  refine ⟨_, rfl, fun hx => ?_, s.reg_setRegFlag x VF b f, rfl,
    ((Frame.refl _ s).setRegFlag List.mem_cons_self (List.mem_cons_of_mem x List.mem_cons_self) b f).setPc _⟩
  rw [State.advance_eq, State.setPc_reg, State.reg_setRegFlag, if_neg hx, if_pos rfl]

end Sys2Proof.Machine
end

section
/-! PROOF. Register loads and arithmetic (43 R110 to R122, R124; 92 D9, D10, D11, D24): the word of each instruction, what it leaves in
Vx and VF, and its frame. -/

namespace Sys2Proof.Machine

/-! ### The instructions that write Vx alone -/

/-- Settles O41: the write of an immediate. -/
theorem loadImmediateSetsVx : Obligations.LoadImmediateSetsVx := by
  unfold Obligations.LoadImmediateSetsVx
  exact fun x kk s => ⟨decode_ofNat (wordXKK_toNat_sum 0x6 x kk),
    _, rfl, s.reg_setReg_advance x kk, rfl, s.frame_setReg_advance x kk⟩

/-- Settles O42: the sum is reduced modulo 256, and the frame holds VF. -/
theorem addImmediateWrapsWithoutFlag : Obligations.AddImmediateWrapsWithoutFlag := by
  unfold Obligations.AddImmediateWrapsWithoutFlag
  refine fun x kk s => ⟨decode_ofNat (wordXKK_toNat_sum 0x7 x kk), _, rfl, ?_, rfl, s.frame_setReg_advance x _⟩
  rw [s.reg_setReg_advance, add8_toNat]

/-- Settles O43: the write of Vy. -/
theorem loadRegisterCopies : Obligations.LoadRegisterCopies := by
  unfold Obligations.LoadRegisterCopies
  exact fun x y s => ⟨decode_op8_number 0x0 rfl, _, rfl, s.reg_setReg_advance x _, rfl, s.frame_setReg_advance x _⟩

/-- Settles O44: bit k of each result is the operation on the operands' bits k. -/
theorem logicOperationsAreBitwise : Obligations.LogicOperationsAreBitwise := by
  unfold Obligations.LogicOperationsAreBitwise
  refine fun x y s => ⟨decode_op8_number 0x1 rfl, decode_op8_number 0x2 rfl, decode_op8_number 0x3 rfl,
    ⟨_, rfl, rfl, s.frame_setReg_advance x _, fun k => ?_⟩, ⟨_, rfl, rfl, s.frame_setReg_advance x _, fun k => ?_⟩,
    _, rfl, rfl, s.frame_setReg_advance x _, fun k => ?_⟩
  · rw [s.reg_setReg_advance, BitVec.getLsbD_or]
  · rw [s.reg_setReg_advance, BitVec.getLsbD_and]
  · rw [s.reg_setReg_advance, BitVec.getLsbD_xor]

/-- Settles O48: a bit of the drawn byte is kept only where the mask has a 1. -/
theorem randomByteStaysUnderMask : Obligations.RandomByteStaysUnderMask := by
  unfold Obligations.RandomByteStaysUnderMask
  refine fun x kk s => ⟨decode_ofNat (wordXKK_toNat_sum 0xC x kk), _, rfl, s.draw.2.reg_setReg_advance x _, fun k hk => ?_, rfl,
    (((Frame.refl _ s).draw rfl).setReg List.mem_cons_self _).setPc _⟩
  rw [State.reg_setReg_advance, BitVec.getLsbD_and, hk, Bool.and_false]

/-! ### The instructions that write Vx and then VF -/

/-- Settles O45: the sum modulo 256, and its carry in VF. -/
theorem addRegistersSetsCarry : Obligations.AddRegistersSetsCarry := by
  unfold Obligations.AddRegistersSetsCarry
  intro x y s
  obtain ⟨t, ht, hx, hVF, hpc, hframe⟩ :=
    s.setRegFlag_advance_spec x (b := add8 (s.reg x) (s.reg y)) rfl (flagByte_decide (255 < (s.reg x).toNat + (s.reg y).toNat))
  exact ⟨decode_op8_number 0x4 rfl, t, ht, fun h => by rw [hx h, add8_toNat], hVF, hpc, hframe⟩

/-- Settles O46: the difference modulo 256, and the strict comparison in VF. -/
theorem subtractionsSetGreater : Obligations.SubtractionsSetGreater := by
  unfold Obligations.SubtractionsSetGreater
  exact fun x y s => ⟨decode_op8_number 0x5 rfl, decode_op8_number 0x7 rfl,
    s.setRegFlag_advance_spec x (sub8_eq_sub _ _) (flagByte_decide _),
    s.setRegFlag_advance_spec x (sub8_eq_sub _ _) (flagByte_decide _)⟩

/-- Settles O47: the logical shift by one, and the bit it drops in VF. -/
theorem shiftsSetBitShiftedOut : Obligations.ShiftsSetBitShiftedOut := by
  unfold Obligations.ShiftsSetBitShiftedOut
  exact fun x y s => ⟨decode_op8_number 0x6 rfl, decode_op8_number 0xE rfl,
    s.setRegFlag_advance_spec x (half8_eq_shiftRight _) (congrArg flagByte (lowBit_eq_getLsbD _)),
    s.setRegFlag_advance_spec x (double8_eq_shiftLeft _) (congrArg flagByte (highBit_eq_getLsbD _))⟩

end Sys2Proof.Machine
end

section
/-! SUPPORT. What the instructions that use I need (44): the value of an `Fxkk` word; the frames of a write of I, of memory and of a
block of registers; the two sides of the bounds check of a transfer; and what the transferred bytes and registers read as. -/

namespace Sys2Proof.Machine

/-! ### The words -/

/-- The value of an `Fxkk` word, its fields summed as 44 writes them. -/
theorem wordXKK_opF_toNat_sum (x : Reg) (kk : Byte) : (wordXKK 0xF x kk).toNat = 0xF000 + kk.toNat + 0x100 * x.val := by
  have hop : (0xF : BitVec 4).toNat = 0xF := rfl
  rw [wordXKK_toNat, hop]; omega

theorem decode_opF_number {i : Instr} {x : Reg} (kk : Byte) (h : encode i = wordXKK 0xF x kk) :
    decode (BitVec.ofNat 16 (0xF000 + kk.toNat + 0x100 * x.val)) = .ok i :=
  decode_ofNat (h ▸ wordXKK_opF_toNat_sum x kk)

theorem decode_ldI_number (nnn : Addr) : decode (BitVec.ofNat 16 (0xA000 + nnn.toNat)) = .ok (.ldI nnn) :=
  decode_ofNat (wordNNN_toNat 0xA nnn)

/-! ### The frames -/

section
variable {w : Writes} {s t : State}

theorem Frame.setI (h : Frame w s t) (hw : w.index = true) (v : Word) : Frame w s (t.setI v) :=
  { h with index := fun hf => absurd (hw.symm.trans hf) (by decide) }

/-- The written bytes must be exactly those the frame lists. -/
theorem Frame.writeBytes {bs : List Byte} (h : Frame w s t) (hlen : bs.length = w.memLen) : Frame w s (t.writeBytes w.memAt bs) :=
  { h with memory := fun a ha => (t.readByte_writeBytes_outside bs (hlen ▸ ha)).trans (h.memory a ha) }

theorem Frame.setRegsFrom {bs : List Byte} {i : Nat} (h : Frame w s t)
    (hregs : ∀ r : Reg, r.val < i + bs.length → r ∈ w.regs) : Frame w s (t.setRegsFrom i bs) := by
  induction bs generalizing t i with
  | nil => exact h
  | cons b bs ih =>
    rw [List.length_cons] at hregs
    rw [State.setRegsFrom]
    split
    · next hi => exact ih (h.setReg (hregs ⟨i, hi⟩ (by simp)) b) fun r hr => hregs r (by omega)
    · exact h

end

/-! ### The bounds check of a transfer -/

section
variable {s : State} {a n : Nat} {bs : List Byte}

theorem attempt_memWrite_of_inside {k : State → State} (h : a + bs.length ≤ 0x1000) :
    attempt (s.memWrite a bs) s k = .next (k (s.writeBytes a bs)) := by
  rw [s.memWrite_ok (.inr h), attempt_ok]

theorem attempt_memWrite_of_outside {k : State → State} (h0 : 0 < bs.length) (h : 0x1000 < a + bs.length) :
    attempt (s.memWrite a bs) s k = .next (s.faultedWith .memoryOutOfBounds (some s.lastWord) (max a 0x1000)) := by
  rw [s.memWrite_error h0 h, attempt_error]

theorem attempt_memRead_of_inside {k : List Byte → State} (h : a + n ≤ 0x1000) :
    attempt (s.memRead a n) s k = .next (k (s.readBytes a n)) := by
  rw [s.memRead_ok (.inr h), attempt_ok]

theorem attempt_memRead_of_outside {k : List Byte → State} (h0 : 0 < n) (h : 0x1000 < a + n) :
    attempt (s.memRead a n) s k = .next (s.faultedWith .memoryOutOfBounds (some s.lastWord) (max a 0x1000)) := by
  rw [s.memRead_error h0 h, attempt_error]

end

/-! ### What was transferred -/

/-- The digits as numbers: each fits a byte. -/
theorem bcdDigits_toNat (v : Byte) : (bcdDigits v).map BitVec.toNat = [v.toNat / 100, v.toNat / 10 % 10, v.toNat % 10] := by
  have hundreds : v.toNat / 100 % 256 = v.toNat / 100 := by omega
  have tens : v.toNat / 10 % 10 % 256 = v.toNat / 10 % 10 := by omega
  have ones : v.toNat % 10 % 256 = v.toNat % 10 := by omega
  simp [bcdDigits, hundreds, tens, ones]

/-- After the digits are stored, the byte k places on is digit k. -/
theorem State.readByte_writeBytes_bcdDigits (s : State) (a : Nat) (v : Byte) (k : Fin 3) :
    ((s.writeBytes a (bcdDigits v)).readByte (a + k.val)).toNat = [v.toNat / 100, v.toNat / 10 % 10, v.toNat % 10][k] := by
  rw [s.readByte_writeBytes_inside a k.val (bcdDigits v) k.isLt]
  simp only [← bcdDigits_toNat]
  exact (List.getElem_map BitVec.toNat).symm

/-- After the bytes from a on are loaded into V0 to Vx, Vk is the byte k places on. -/
theorem State.reg_setRegsFrom_readBytes (s : State) (a : Nat) {x k : Reg} (h : k ≤ x) :
    (s.setRegsFrom 0 (s.readBytes a (x.val + 1))).reg k = s.readByte (a + k.val) := by
  have hlen := s.readBytes_length a (x.val + 1)
  have hk : k.val < (s.readBytes a (x.val + 1)).length := by rw [hlen]; exact Nat.lt_succ_of_le h
  rw [State.setRegsFrom_reg _ _ _ (by omega), if_pos (Nat.zero_le _), Nat.sub_zero, List.getD_eq_getElem _ _ hk,
    s.readBytes_getElem]

theorem State.setRegsFrom_pc (s : State) (i : Nat) (bs : List Byte) : (s.setRegsFrom i bs).pc = s.pc := by
  obtain ⟨v, hv⟩ := s.setRegsFrom_frame bs i
  rw [hv]

end Sys2Proof.Machine
end

section
/-! PROOF. The index register and memory transfers (44 R125 to R130; 92 D2, D13, D14): the word of each instruction, what it leaves in
I, in memory or in V0 to Vx on each side of its bounds check, and its frame. -/

namespace Sys2Proof.Machine

/-- Settles O49: both addresses fit 16 bits. -/
theorem loadIndexAndGlyphAddress : Obligations.LoadIndexAndGlyphAddress := by
  unfold Obligations.LoadIndexAndGlyphAddress
  exact fun nnn x s => ⟨decode_ldI_number nnn, decode_opF_number 0x29 rfl,
    ⟨_, rfl, zextAddr_toNat nnn, rfl, ((Frame.refl _ s).setI rfl _).setPc _⟩,
    _, rfl, glyphAddr_toNat _, rfl, ((Frame.refl _ s).setI rfl _).setPc _⟩

/-- Settles O50: the sum is one of 16-bit words, and the frame holds every register. -/
theorem addIndexWrapsWithoutFlag : Obligations.AddIndexWrapsWithoutFlag := by
  unfold Obligations.AddIndexWrapsWithoutFlag
  refine fun x s => ⟨decode_opF_number 0x1E rfl, _, rfl, ?_, rfl, ((Frame.refl _ s).setI rfl _).setPc _⟩
  rw [State.advance_eq, State.setPc_I, State.setI_I, BitVec.toNat_add, zextByte_toNat]

/-- Settles O51: by the two sides of the bounds check of three bytes. -/
theorem bcdStoresDecimalDigits : Obligations.BcdStoresDecimalDigits := by
  unfold Obligations.BcdStoresDecimalDigits
  refine fun x s => ⟨decode_opF_number 0x33 rfl, fun hin => ?_, fun hout => ?_⟩
  · have hdigit := s.readByte_writeBytes_bcdDigits s.indexAddr (s.reg x)
    exact ⟨_, attempt_memWrite_of_inside (by rw [bcdDigits_length]; omega), hdigit 0, hdigit 1, hdigit 2, rfl,
      ((Frame.refl _ s).writeBytes rfl).setPc _⟩
  · exact attempt_memWrite_of_outside (by simp) (by rw [bcdDigits_length]; omega)

/-- Settles O52: by the two sides of the bounds check of the block V0 to Vx. -/
theorem storeRegistersCopiesToMemory : Obligations.StoreRegistersCopiesToMemory := by
  unfold Obligations.StoreRegistersCopiesToMemory
  refine fun x s => ⟨decode_opF_number 0x55 rfl, fun hin => ?_, fun hout => ?_⟩
  · exact ⟨_, attempt_memWrite_of_inside (by rw [s.regBlock_length]; omega),
      fun k hk => s.readByte_writeBytes_regBlock s.indexAddr hk, rfl,
      ((Frame.refl _ s).writeBytes (s.regBlock_length x)).setPc _⟩
  · exact attempt_memWrite_of_outside (by simp) (by rw [s.regBlock_length]; omega)

/-- Settles O53: by the two sides of the bounds check of as many bytes as there are registers up to x. -/
theorem loadRegistersCopiesFromMemory : Obligations.LoadRegistersCopiesFromMemory := by
  unfold Obligations.LoadRegistersCopiesFromMemory
  refine fun x s => ⟨decode_opF_number 0x65 rfl, fun hin => ?_, fun hout => ?_⟩
  · refine ⟨_, attempt_memRead_of_inside (by omega), fun k hk => s.reg_setRegsFrom_readBytes s.indexAddr hk,
      congrArg (· + 2) (s.setRegsFrom_pc 0 _), ((Frame.refl _ s).setRegsFrom fun r hr => ?_).setPc _⟩
    rw [s.readBytes_length] at hr
    have hrx : r ≤ x := Fin.le_def.2 (by omega)
    exact List.mem_filter.2 ⟨List.mem_finRange r, decide_eq_true hrx⟩
  · exact attempt_memRead_of_outside (Nat.succ_pos _) (by omega)

end Sys2Proof.Machine
end

section
/-! PROOF. The display (45 R131 to R138; 92 D2, D17, D18, D19): the clear and its frame, and the draw on each side of its bounds check:
the rows fetched hit exactly the pixels of the sprite's mask, so the laws of the draw unit speak of that mask. -/

namespace Sys2Proof.Machine

theorem Frame.showDisplay {w : Writes} {s t : State} (h : Frame w s t) (hw : w.display = true) (d : Display) :
    Frame w s (t.showDisplay d) :=
  { h with display := fun hf => absurd (hw.symm.trans hf) (by decide) }

/-- Settles O54: every pixel of the blank display is off, and the clear writes nothing else. -/
theorem clearTurnsAllPixelsOff : Obligations.ClearTurnsAllPixelsOff := by
  unfold Obligations.ClearTurnsAllPixelsOff
  exact ⟨decode_encode .cls, fun s => ⟨_, rfl, Display.pixel_blank, rfl, rfl, ((Frame.refl _ s).showDisplay rfl _).setPc _⟩⟩

/-! ### The draw -/

theorem decode_drw_number (x y : Reg) (n : Rows) :
    decode (BitVec.ofNat 16 (0xD000 + 0x100 * x.val + 0x10 * y.val + n.val)) = .ok (.drw x y n) :=
  decode_ofNat (by rw [encode, wordXYN_toNat]; show 0xD * 0x1000 + x.val * 0x100 + y.val * 0x10 + n.val = _; omega)

/-- The rows at I hit exactly the pixels of the mask (45 R133, R134). -/
theorem State.spriteHits_readBytes (s : State) (n x0 y0 : Nat) (px : Fin 64) (py : Fin 32) :
    SpriteHits (s.readBytes s.indexAddr n) x0 y0 px py ↔ s.spriteMask n x0 y0 px py := by
  have hlen := s.readBytes_length s.indexAddr n
  constructor
  · rintro ⟨r, hr, c, hc, hbit, hx, hy⟩
    rw [s.readBytes_getElem] at hbit
    exact ⟨r, hlen ▸ hr, c, hc, hbit, congrArg Fin.val hx, congrArg Fin.val hy⟩
  · rintro ⟨r, hr, c, hc, hbit, hx, hy⟩
    have hr' : r < (s.readBytes s.indexAddr n).length := hlen.symm ▸ hr
    refine ⟨r, hr', c, hc, ?_, Fin.ext hx, Fin.ext hy⟩
    rw [s.readBytes_getElem]
    exact hbit

section
variable {s : State} {x y : Reg} {n : Rows}

theorem exec_drw_of_inside (h : n = 0 ∨ s.indexAddr + n.val ≤ 0x1000) :
    exec (.drw x y n) s = .next (s.drawRows x y (s.readBytes s.indexAddr n.val)).advance := by
  rw [exec, execDrw, s.memRead_ok (h.imp_left (congrArg Fin.val)), attempt_ok]

theorem exec_drw_of_outside (h0 : n ≠ 0) (h : 0x1000 < s.indexAddr + n.val) :
    exec (.drw x y n) s = .next (s.faultedWith .memoryOutOfBounds (some s.lastWord) (max s.indexAddr 0x1000)) :=
  attempt_memRead_of_outside (Nat.pos_of_ne_zero (Fin.val_ne_of_ne h0)) h

end

theorem Frame.drawRows {w : Writes} {s t : State} (h : Frame w s t) (hd : w.display = true) (hVF : VF ∈ w.regs) (x y : Reg)
    (rows : List Byte) : Frame w s (t.drawRows x y rows) :=
  (h.showDisplay hd _).setReg hVF _

/-- A sprite has at most 15 rows, so no two of its bits share a pixel: the draw toggles the mask and nothing else (45 R134, R138). -/
theorem State.drawRows_pixel (s : State) (x y : Reg) (n : Rows) (px : Fin 64) (py : Fin 32) :
    (s.spriteMask n.val (s.reg x).toNat (s.reg y).toNat px py →
      (s.drawRows x y (s.readBytes s.indexAddr n.val)).disp.pixel px py = !s.disp.pixel px py) ∧
    (¬s.spriteMask n.val (s.reg x).toNat (s.reg y).toNat px py →
      (s.drawRows x y (s.readBytes s.indexAddr n.val)).disp.pixel px py = s.disp.pixel px py) := by
  have hrows : (s.readBytes s.indexAddr n.val).length ≤ 32 := by rw [s.readBytes_length]; omega
  rw [← s.spriteHits_readBytes]
  exact xorDraw_pixel _ _ _ hrows s.disp px py

/-- The detector, asked about the rows at I, answers for the pixels of the mask (45 R135). -/
theorem State.collision_readBytes (s : State) (n x0 y0 : Nat) :
    collision (s.readBytes s.indexAddr n) x0 y0 s.disp = true ↔
      ∃ px py, s.spriteMask n x0 y0 px py ∧ s.disp.pixel px py = true := by
  simp only [collision_iff, s.spriteHits_readBytes]

theorem State.drawRows_reg_VF (s : State) (x y : Reg) (rows : List Byte) :
    (s.drawRows x y rows).reg VF = flagByte (collision rows (s.reg x).toNat (s.reg y).toNat s.disp) :=
  State.reg_setReg_self _ VF _

/-- Settles O55: by the two sides of the bounds check, the pixels of the mask, and the detector's answer in VF. -/
theorem drawXorsSpriteMask : Obligations.DrawXorsSpriteMask := by
  unfold Obligations.DrawXorsSpriteMask
  refine fun x y n s => ⟨decode_drw_number x y n, fun hin => ?_, exec_drw_of_outside⟩
  have hpixel := s.drawRows_pixel x y n
  have hVF := s.drawRows_reg_VF x y (s.readBytes s.indexAddr n.val)
  refine ⟨_, exec_drw_of_inside hin, fun px py => (hpixel px py).1, fun px py => (hpixel px py).2, fun hlit => ?_, fun hdark => ?_,
    rfl, rfl, ((Frame.refl _ s).drawRows rfl List.mem_cons_self x y _).setPc _⟩
  · exact hVF.trans (congrArg flagByte ((s.collision_readBytes _ _ _).2 hlit))
  · rw [← s.collision_readBytes, Bool.not_eq_true] at hdark
    exact hVF.trans (congrArg flagByte hdark)

/-- Settles O56: the draw of O55 on a blank display, where a toggled pixel is lit and no pixel can collide. -/
theorem clearThenDrawLeavesSprite : Obligations.ClearThenDrawLeavesSprite := by
  unfold Obligations.ClearThenDrawLeavesSprite
  intro x y n s hin
  obtain ⟨-, hinside, -⟩ := drawXorsSpriteMask x y n (s.showDisplay Display.blank).advance
  obtain ⟨u, hu, hon, hoff, -, hclear, -⟩ := hinside hin
  have hblank : ∀ px py, (s.showDisplay Display.blank).advance.disp.pixel px py = false := Display.pixel_blank
  simp only [hblank, Bool.not_false] at hon hoff
  refine ⟨_, u, rfl, hu, hclear fun ⟨px, py, _, hlit⟩ => ?_, fun px py => ⟨fun hlit => ?_, hon px py⟩⟩
  · exact Bool.false_ne_true ((hblank px py).symm.trans hlit)
  · by_contra hmask
    exact Bool.false_ne_true ((hoff px py hmask).symm.trans hlit)

end Sys2Proof.Machine
end

section
/-! PROOF. The keypad and the delay timer as operands (46 R139 to R142; 92 D1, D15, D16): the two skips on each side of the check of
their key's number, the copy of DT in an instruction and in a cycle, and the wait for a key on each side of a key being pressed. -/

namespace Sys2Proof.Machine

/-! ### The skips on a key -/

/-- An `Exkk` word given as the number its pattern reads as (30 R74). -/
theorem decode_opE_number {i : Instr} {x : Reg} (kk : Byte) (h : encode i = wordXKK 0xE x kk) :
    decode (BitVec.ofNat 16 (0xE000 + kk.toNat + 0x100 * x.val)) = .ok i := by
  have hop : (0xE : BitVec 4).toNat = 0xE := rfl
  refine decode_ofNat ?_
  rw [h, wordXKK_toNat, hop]; omega

section
variable {s : State} {v : Byte} {build : Fin 16 → State}

theorem attempt_keyIndex_of_key {k : Fin 16} (h : v.toNat = k.val) : attempt (keyIndex v) s build = .next (build k) := by
  have hk : (⟨v.toNat, h ▸ k.isLt⟩ : Fin 16) = k := Fin.ext h
  rw [keyIndex_ok (by omega), hk, attempt_ok]

theorem attempt_keyIndex_of_no_key (h : 0xF < v.toNat) :
    attempt (keyIndex v) s build = .next (s.faultedWith .keyIndexOutOfRange (some s.lastWord) v.toNat) := by
  rw [keyIndex_error h, attempt_error]

end

/-- Settles O57: by the two sides of the key check, and the pc and frame of a skip. -/
theorem keySkipsSampleKey : Obligations.KeySkipsSampleKey := by
  unfold Obligations.KeySkipsSampleKey
  refine fun x s => ⟨decode_opE_number 0x9E rfl, decode_opE_number 0xA1 rfl, fun k hk => ⟨?_, ?_⟩, fun hout => ?_⟩
  · exact ⟨_, attempt_keyIndex_of_key hk, s.skipIf_pc _, (Frame.refl _ s).skipIf _⟩
  · refine ⟨_, attempt_keyIndex_of_key hk, ?_, (Frame.refl _ s).skipIf _⟩
    rw [State.skipIf_pc]
    cases s.key[k.val] <;> rfl
  · exact ⟨attempt_keyIndex_of_no_key hout, attempt_keyIndex_of_no_key hout⟩

/-! ### Reading the delay timer -/

theorem exec_ldVxDT_spec (x : Reg) (s : State) :
    ∃ t, exec (.ldVxDT x) s = .next t ∧ t.reg x = s.DT ∧ t.pc = s.pc + 2 ∧ Frame { regs := [x] } s t :=
  ⟨_, rfl, s.reg_setReg_advance x _, rfl, s.frame_setReg_advance x _⟩

/-- Settles O58: a cycle executes the copy after its tick, and the copy's frame holds DT. -/
theorem readDelayTimerAfterTick : Obligations.ReadDelayTimerAfterTick := by
  unfold Obligations.ReadDelayTimerAfterTick
  refine fun x s => ⟨decode_opF_number 0x07 rfl, exec_ldVxDT_spec x s, fun hrun hok hd => ?_⟩
  obtain ⟨t, hexec, hreg, -, hframe⟩ := exec_ldVxDT_spec x (s.tick.setLastWord s.wordAtPc)
  refine ⟨t, (step_of_decode hrun hok hd).trans hexec, ?_, (hframe.delay rfl).trans hreg.symm⟩
  rw [hreg, State.setLastWord_DT, State.tick_DT, countDown_toNat]

/-! ### Waiting for a key -/

section
variable {s : State} {k : Fin 16}

/-- The scan in rising order stops at a pressed key below which none is pressed (92 D15). -/
theorem State.firstKey_eq_some (hk : s.key[k.val] = true) (hlow : ∀ j : Fin 16, j < k → s.key[j.val] = false) :
    s.firstKey = some k := by
  cases hfirst : s.firstKey with
  | none => exact absurd (hk.symm.trans (State.firstKey_none hfirst k)) (by decide)
  | some j =>
    obtain ⟨hj, hjlow⟩ := State.firstKey_some hfirst
    rcases lt_trichotomy j k with hlt | rfl | hgt
    · exact absurd (hj.symm.trans (hlow j hlt)) (by decide)
    · rfl
    · exact absurd (hk.symm.trans (hjlow k hgt)) (by decide)

theorem State.firstKey_eq_none (h : ∀ k : Fin 16, s.key[k.val] = false) : s.firstKey = none :=
  List.find?_eq_none.2 fun k _ => by rw [h k]; decide

theorem exec_ldVxK_of_firstKey_some (x : Reg) (h : s.firstKey = some k) :
    exec (.ldVxK x) s = .next (s.setReg x (BitVec.ofNat 8 k.val)).advance := by
  rw [exec, execLdVxK, h]

theorem exec_ldVxK_of_firstKey_none (x : Reg) (h : s.firstKey = none) : exec (.ldVxK x) s = .next s := by
  rw [exec, execLdVxK, h]

end

/-- Settles O59: by what the scan of the keypad answers; a key's number fits a byte. -/
theorem waitKeyTakesLowestKey : Obligations.WaitKeyTakesLowestKey := by
  unfold Obligations.WaitKeyTakesLowestKey
  refine fun x s => ⟨decode_opF_number 0x0A rfl, fun k hk hlow => ?_,
    fun hnone => exec_ldVxK_of_firstKey_none x (State.firstKey_eq_none hnone)⟩
  refine ⟨_, exec_ldVxK_of_firstKey_some x (State.firstKey_eq_some hk hlow), ?_, rfl, s.frame_setReg_advance x _⟩
  rw [s.reg_setReg_advance, BitVec.toNat_ofNat]
  exact Nat.mod_eq_of_lt (by omega)

end Sys2Proof.Machine
end

section
/-! PROOF. Loading a ROM (70 R166 to R168; 92 D22): the answer of `load` on each side of its length check, and what memory reads
afterwards. -/

namespace Sys2Proof.Machine

theorem State.hostLoad_ok (s : State) {bs : List Byte} (h : bs.length ≤ 3584) :
    s.hostLoad bs = (s.hostReset.writeBytes 0x200 bs, .ok) :=
  if_neg (Nat.not_lt.2 h)

theorem State.hostLoad_romTooLarge (s : State) {bs : List Byte} (h : 3584 < bs.length) : s.hostLoad bs = (s, .romTooLarge) :=
  if_pos h

/-- Settles O30: an accepted load writes the ROM's bytes over the reset state, and a write reads back inside its block and leaves
memory outside it; the length is checked before the reset. -/
theorem loadAcceptsUpToMaxRom : Obligations.LoadAcceptsUpToMaxRom := by
  unfold Obligations.LoadAcceptsUpToMaxRom
  refine fun s bs => ⟨fun hfits => ⟨s.hostReset.writeBytes 0x200 bs, ?_, rfl, ?_, ?_⟩, fun hlong => ?_⟩
  · rw [command, s.hostLoad_ok hfits]
  · exact fun k => s.hostReset.readByte_writeBytes_inside 0x200 k.val bs k.isLt
  · exact fun a ha => s.hostReset.readByte_writeBytes_outside bs ha
  · rw [command, s.hostLoad_romTooLarge hlong]

end Sys2Proof.Machine
end
